-- ==== Sys2Proof/Word.lean ====
section
/-! DEFINITION. The 16-bit word of the LC3VM core and the byte of its console and image (00_scope.md R6, R10, R11).
Addition, complement and the bitwise operations of `BitVec 16` are already reduced modulo 65536, as R11 asks. -/

namespace Sys2Proof

/-- `Word16` (R11): a register, a memory cell, an address, an instruction word. -/
abbrev Word := BitVec 16

/-- One byte: a character the console supplies (R9), half of an image word (R148). -/
abbrev Byte := BitVec 8

end Sys2Proof
end

