-- ==== Sys2Proof/Syntax.lean ====
section
/-! DEFINITION. The instructions of the LC3VM core: one constructor per row of spec/opcode_table.json (30_encoding.md R65,
R66; 00_scope.md R5), its operands the named fields of the row's format, each with the width the format gives it. The bits
the decoder ignores (R73) are no operands. -/

namespace Sys2Proof

/-- A general register R0..R7 (10_state.md R17), named by a 3-bit field (30_encoding.md R70). -/
inductive Reg where
  | r0 | r1 | r2 | r3 | r4 | r5 | r6 | r7
  deriving DecidableEq, Repr, Inhabited

/-- One constructor per row of the opcode table. -/
inductive Instr where
  /-- ADD, register mode (R92). -/
  | addReg (dr sr1 sr2 : Reg)
  /-- ADD, immediate mode (R93). -/
  | addImm (dr sr1 : Reg) (imm5 : BitVec 5)
  /-- AND, register mode (R94). -/
  | andReg (dr sr1 sr2 : Reg)
  /-- AND, immediate mode (R95). -/
  | andImm (dr sr1 : Reg) (imm5 : BitVec 5)
  /-- NOT (R96). -/
  | not (dr sr : Reg)
  /-- BR (R99): `mask` is n, z, p as bits 2, 1, 0. -/
  | br (mask : BitVec 3) (off9 : BitVec 9)
  /-- JMP; RET is `jmp r7` (R100). -/
  | jmp (baseR : Reg)
  /-- JSR (R101). -/
  | jsr (off11 : BitVec 11)
  /-- JSRR (R102). -/
  | jsrr (baseR : Reg)
  /-- LD (R106). -/
  | ld (dr : Reg) (off9 : BitVec 9)
  /-- LDI (R107). -/
  | ldi (dr : Reg) (off9 : BitVec 9)
  /-- LDR (R108). -/
  | ldr (dr baseR : Reg) (off6 : BitVec 6)
  /-- LEA (R109). -/
  | lea (dr : Reg) (off9 : BitVec 9)
  /-- ST (R110). -/
  | st (sr : Reg) (off9 : BitVec 9)
  /-- STI (R111). -/
  | sti (sr : Reg) (off9 : BitVec 9)
  /-- STR (R112). -/
  | str (sr baseR : Reg) (off6 : BitVec 6)
  /-- TRAP (R114). -/
  | trap (trapvect8 : BitVec 8)
  /-- The reserved opcode 8 (R72, R124). -/
  | reserved8
  /-- The reserved opcode 13 (R72, R124). -/
  | reserved13
  deriving DecidableEq, Repr, Inhabited

end Sys2Proof
end

