-- ==== Sys2Proof/WellFormed.lean ====
section
/-! DEFINITION. When an instruction is well-formed: every operand is a number its field can hold (30_encoding.md R65, R69 to
R71). The types of `Instr` give each operand exactly the width of its field, so no ill-formed instruction can be built and
the check holds of every one (`Sys2Proof.Laws.wellFormed_all`). What the check refuses are numbers too large for a field,
which is where the tests meet it. -/

namespace Sys2Proof

/-- The number of a register, the value of its 3-bit field (R70). -/
def Reg.number : Reg → Nat
  | .r0 => 0 | .r1 => 1 | .r2 => 2 | .r3 => 3
  | .r4 => 4 | .r5 => 5 | .r6 => 6 | .r7 => 7

/-- An operand as an unsigned number (R10) beside the width of the field it goes into. -/
structure Operand where
  value : Nat
  width : Nat
  deriving DecidableEq, Repr

/-- The number fits the field. -/
def Operand.fits (o : Operand) : Bool := decide (o.value < 2 ^ o.width)

/-- A register in a 3-bit field (R70). -/
def Reg.operand (r : Reg) : Operand := ⟨r.number, 3⟩

/-- The operands of an instruction, from the highest field to the lowest (R65). -/
def Instr.operands : Instr → List Operand
  | .addReg dr sr1 sr2 => [dr.operand, sr1.operand, sr2.operand]
  | .addImm dr sr1 imm5 => [dr.operand, sr1.operand, ⟨imm5.toNat, 5⟩]
  | .andReg dr sr1 sr2 => [dr.operand, sr1.operand, sr2.operand]
  | .andImm dr sr1 imm5 => [dr.operand, sr1.operand, ⟨imm5.toNat, 5⟩]
  | .not dr sr => [dr.operand, sr.operand]
  | .br mask off9 => [⟨mask.toNat, 3⟩, ⟨off9.toNat, 9⟩]
  | .jmp baseR => [baseR.operand]
  | .jsr off11 => [⟨off11.toNat, 11⟩]
  | .jsrr baseR => [baseR.operand]
  | .ld dr off9 => [dr.operand, ⟨off9.toNat, 9⟩]
  | .ldi dr off9 => [dr.operand, ⟨off9.toNat, 9⟩]
  | .ldr dr baseR off6 => [dr.operand, baseR.operand, ⟨off6.toNat, 6⟩]
  | .lea dr off9 => [dr.operand, ⟨off9.toNat, 9⟩]
  | .st sr off9 => [sr.operand, ⟨off9.toNat, 9⟩]
  | .sti sr off9 => [sr.operand, ⟨off9.toNat, 9⟩]
  | .str sr baseR off6 => [sr.operand, baseR.operand, ⟨off6.toNat, 6⟩]
  | .trap trapvect8 => [⟨trapvect8.toNat, 8⟩]
  | .reserved8 => []
  | .reserved13 => []

/-- Every operand fits its field. -/
def Instr.wellFormed (i : Instr) : Bool := i.operands.all Operand.fits

end Sys2Proof
end

