-- ==== Sys2Proof/Decode.lean ====
section
/-! DEFINITION. Decoding and encoding (30_encoding.md R63 to R77). The decoder is total: each of the 65536 words is one
instruction, the two reserved opcodes included (R72, R77). It examines bits 15:12, bit 5 of ADD and AND, bit 11 of opcode 4
and the named operand fields, nothing else (R73, R75). The opcode numbers and field positions are the spec's decisions D2 and
D3 (PRESUMED by the spec, unsafe: log 1, 2), the ignored bits its decision D4 (log 3). -/

namespace Sys2Proof

/-- The register a 3-bit field names (R70). -/
def Reg.ofBits (b : BitVec 3) : Reg :=
  match b.getLsbD 2, b.getLsbD 1, b.getLsbD 0 with
  | false, false, false => .r0
  | false, false, true => .r1
  | false, true, false => .r2
  | false, true, true => .r3
  | true, false, false => .r4
  | true, false, true => .r5
  | true, true, false => .r6
  | true, true, true => .r7

/-- The 3-bit field that names a register (R70). -/
def Reg.bits (r : Reg) : BitVec 3 := BitVec.ofNat 3 r.number

/-- `w[lo+len-1 : lo]` (R10). -/
def field (w : Word) (lo len : Nat) : BitVec len := w.extractLsb' lo len

/-- The register named in bits 11:9, DR or SR (R65). -/
def regAt9 (w : Word) : Reg := Reg.ofBits (field w 9 3)

/-- The register named in bits 8:6, SR1, SR of NOT, or BaseR (R65). -/
def regAt6 (w : Word) : Reg := Reg.ofBits (field w 6 3)

/-- The register named in bits 2:0, SR2 (R65). -/
def regAt0 (w : Word) : Reg := Reg.ofBits (field w 0 3)

/-- The decoder: bits 15, 14, 13, 12 are read as the opcode map R66 writes them, then the mode bit 5 of ADD and AND (R67)
and the long flag, bit 11, of JSR and JSRR (R68). -/
def decode (w : Word) : Instr :=
  match w.getLsbD 15, w.getLsbD 14, w.getLsbD 13, w.getLsbD 12 with
  | false, false, false, false => .br (field w 9 3) (field w 0 9)
  | false, false, false, true =>
    match w.getLsbD 5 with
    | false => .addReg (regAt9 w) (regAt6 w) (regAt0 w)
    | true => .addImm (regAt9 w) (regAt6 w) (field w 0 5)
  | false, false, true, false => .ld (regAt9 w) (field w 0 9)
  | false, false, true, true => .st (regAt9 w) (field w 0 9)
  | false, true, false, false =>
    match w.getLsbD 11 with
    | true => .jsr (field w 0 11)
    | false => .jsrr (regAt6 w)
  | false, true, false, true =>
    match w.getLsbD 5 with
    | false => .andReg (regAt9 w) (regAt6 w) (regAt0 w)
    | true => .andImm (regAt9 w) (regAt6 w) (field w 0 5)
  | false, true, true, false => .ldr (regAt9 w) (regAt6 w) (field w 0 6)
  | false, true, true, true => .str (regAt9 w) (regAt6 w) (field w 0 6)
  | true, false, false, false => .reserved8
  | true, false, false, true => .not (regAt9 w) (regAt6 w)
  | true, false, true, false => .ldi (regAt9 w) (field w 0 9)
  | true, false, true, true => .sti (regAt9 w) (field w 0 9)
  | true, true, false, false => .jmp (regAt6 w)
  | true, true, false, true => .reserved13
  | true, true, true, false => .lea (regAt9 w) (field w 0 9)
  | true, true, true, true => .trap (field w 0 8)

/-- A field value at its place in the word: bits `lo+len-1 : lo` (R10). -/
def place {len : Nat} (v : BitVec len) (lo : Nat) : Word := v.setWidth 16 <<< lo

/-- The word of an instruction: the bits its format fixes (the row's `match` in the opcode table), and each operand at its
place (R65). The ignored bits (`x`) are written 0. -/
def encode : Instr → Word
  | .addReg dr sr1 sr2 => 0x1000 ||| place dr.bits 9 ||| place sr1.bits 6 ||| place sr2.bits 0
  | .addImm dr sr1 imm5 => 0x1020 ||| place dr.bits 9 ||| place sr1.bits 6 ||| place imm5 0
  | .andReg dr sr1 sr2 => 0x5000 ||| place dr.bits 9 ||| place sr1.bits 6 ||| place sr2.bits 0
  | .andImm dr sr1 imm5 => 0x5020 ||| place dr.bits 9 ||| place sr1.bits 6 ||| place imm5 0
  | .not dr sr => 0x9000 ||| place dr.bits 9 ||| place sr.bits 6
  | .br mask off9 => 0x0000 ||| place mask 9 ||| place off9 0
  | .jmp baseR => 0xC000 ||| place baseR.bits 6
  | .jsr off11 => 0x4800 ||| place off11 0
  | .jsrr baseR => 0x4000 ||| place baseR.bits 6
  | .ld dr off9 => 0x2000 ||| place dr.bits 9 ||| place off9 0
  | .ldi dr off9 => 0xA000 ||| place dr.bits 9 ||| place off9 0
  | .ldr dr baseR off6 => 0x6000 ||| place dr.bits 9 ||| place baseR.bits 6 ||| place off6 0
  | .lea dr off9 => 0xE000 ||| place dr.bits 9 ||| place off9 0
  | .st sr off9 => 0x3000 ||| place sr.bits 9 ||| place off9 0
  | .sti sr off9 => 0xB000 ||| place sr.bits 9 ||| place off9 0
  | .str sr baseR off6 => 0x7000 ||| place sr.bits 9 ||| place baseR.bits 6 ||| place off6 0
  | .trap trapvect8 => 0xF000 ||| place trapvect8 0
  | .reserved8 => 0x8000
  | .reserved13 => 0xD000

/-- The rows of spec/opcode_table.json, one name each. -/
inductive Form where
  | addReg | addImm | andReg | andImm | not | br | jmp | jsr | jsrr | ld | ldi | ldr | lea | st | sti | str | trap
  | reserved8 | reserved13
  deriving DecidableEq, Repr

/-- The row an instruction belongs to. -/
def Instr.form : Instr → Form
  | .addReg _ _ _ => .addReg
  | .addImm _ _ _ => .addImm
  | .andReg _ _ _ => .andReg
  | .andImm _ _ _ => .andImm
  | .not _ _ => .not
  | .br _ _ => .br
  | .jmp _ => .jmp
  | .jsr _ => .jsr
  | .jsrr _ => .jsrr
  | .ld _ _ => .ld
  | .ldi _ _ => .ldi
  | .ldr _ _ _ => .ldr
  | .lea _ _ => .lea
  | .st _ _ => .st
  | .sti _ _ => .sti
  | .str _ _ _ => .str
  | .trap _ => .trap
  | .reserved8 => .reserved8
  | .reserved13 => .reserved13

/-- A row of the opcode table: the form of the words `w` with `w & mask == pattern`, and the bits R65 names or fixes in such
a word (every bit but those marked `x`; the reserved rows name only the opcode, R72). -/
structure Row where
  form    : Form
  mask    : Word
  pattern : Word
  named   : Word
  deriving DecidableEq, Repr

/-- The word belongs to the row: `w & mask == match`. -/
def Row.accepts (r : Row) (w : Word) : Bool := w &&& r.mask == r.pattern

/-- spec/opcode_table.json, row by row: mask and match as the table writes them, then the bits not marked `x`. -/
def opcodeTable : List Row :=
  [ ⟨.addReg, 0xF020, 0x1000, 0xFFE7⟩, ⟨.addImm, 0xF020, 0x1020, 0xFFFF⟩,
    ⟨.andReg, 0xF020, 0x5000, 0xFFE7⟩, ⟨.andImm, 0xF020, 0x5020, 0xFFFF⟩,
    ⟨.not, 0xF000, 0x9000, 0xFFC0⟩, ⟨.br, 0xF000, 0x0000, 0xFFFF⟩,
    ⟨.jmp, 0xF000, 0xC000, 0xF1C0⟩, ⟨.jsr, 0xF800, 0x4800, 0xFFFF⟩,
    ⟨.jsrr, 0xF800, 0x4000, 0xF9C0⟩, ⟨.ld, 0xF000, 0x2000, 0xFFFF⟩ ]
  ++
  [ ⟨.ldi, 0xF000, 0xA000, 0xFFFF⟩, ⟨.ldr, 0xF000, 0x6000, 0xFFFF⟩,
    ⟨.lea, 0xF000, 0xE000, 0xFFFF⟩, ⟨.st, 0xF000, 0x3000, 0xFFFF⟩,
    ⟨.sti, 0xF000, 0xB000, 0xFFFF⟩, ⟨.str, 0xF000, 0x7000, 0xFFFF⟩,
    ⟨.trap, 0xF000, 0xF000, 0xF0FF⟩, ⟨.reserved8, 0xF000, 0x8000, 0xF000⟩,
    ⟨.reserved13, 0xF000, 0xD000, 0xF000⟩ ]

/-- The instruction the decoder reads from a word of `nbits` bits, the bits above `nbits` being 0. The table numbers a word's
bits as R10 does and gives every row one 16-bit word (R63), so a longer one is no instruction. -/
def decodeTableWord (nbits w : Nat) : Option Instr :=
  if nbits ≤ 16 then some (decode (BitVec.ofNat 16 (w % 2 ^ nbits))) else none

end Sys2Proof
end

