-- ==== Sys2Proof/Config.lean ====
section
/-! DEFINITION. What the spec leaves to the implementation or to the host: the parameters of 00_scope.md R7 that a step
reads, the host's side of the console (R9), and the free values: constants with no body, of which Lean can prove nothing.
The spec's own values of the parameters are in Machine/Parameters.lean. -/

namespace Sys2Proof

/-- `KBSR_SET_MODE` (R7, D8): how "set bit 15 of the status cell" writes 0xFE00. -/
inductive KbsrSetMode where
  /-- `M[0xFE00] <- M[0xFE00] | 0x8000` -/
  | or
  /-- `M[0xFE00] <- 0x8000` -/
  | assign
  deriving DecidableEq, Repr, Inhabited

/-- `UNKNOWN_TRAP` (R7, D14): what a TRAP does whose vector is none of 0x20 to 0x25. -/
inductive UnknownTrapMode where
  | noop
  | fault
  deriving DecidableEq, Repr, Inhabited

/-- `JSRR_ORDER` (R7, D19): whether JSRR writes R7 before or after it reads its base register. -/
inductive JsrrOrder where
  | linkFirst
  | baseFirst
  deriving DecidableEq, Repr, Inhabited

/-- The parameters of R7 that a step reads. They stand in `State` and no step changes them, so a claim about every state
is a claim about every choice of them (DESIGN CHOICE, safe: log 7). A text is the list of the character codes that
`write_char` is given (R118, R120). -/
structure Params where
  kbsrSetMode : KbsrSetMode
  trapLinksR7 : Bool
  unknownTrap : UnknownTrapMode
  jsrrOrder   : JsrrOrder
  haltNotice  : List Word
  inPrompt    : List Word
  deriving DecidableEq, Repr, Inhabited

/-- One character the host will supply: its code, and the number of `poll_ready` calls that still answer false before
it is ready (R9). A blocking read takes it whatever the delay says: it waits (R123). -/
structure KeyEvent where
  delay : Nat
  code  : Byte
  deriving DecidableEq, Repr, Inhabited

/-- A stretch of the host's future answers (R9, I7). Every sequence of characters, each with its delay, is a sequence of
bursts: cut it after each character that is not ready at once or is NUL, the characters that end a scan of PUTS (log 12). -/
inductive Burst where
  /-- the `ready` characters, each ready at once, then one that is not (`delay` polls answer false first), or NUL if `delay`
  is 0 -/
  | paused (ready : List Byte) (delay : Nat) (code : Byte)
  /-- the `ready` characters, each ready at once, and then nothing more for ever -/
  | final (ready : List Byte)
  /-- characters without end, each ready at once and none NUL -/
  | endless
  deriving DecidableEq, Repr, Inhabited

/-- Where the characters come from when the pending ones are used up. -/
inductive Supply where
  /-- the host supplies nothing more: every poll answers false and no blocking read is answered -/
  | silent
  /-- a character is ready at every poll; `typed` of them have been taken -/
  | endless (typed : Nat)
  /-- the host's free choice; `bursts` of its bursts have been drawn -/
  | drawn (bursts : Nat)
  deriving DecidableEq, Repr, Inhabited

/-- The host's future answers as plain data (R9, R36, I7; DESIGN CHOICE: log 11, 12): the characters to come that are already
settled, the next one first, and where the ones after them come from. -/
structure Keyboard where
  pending : List KeyEvent
  supply  : Supply
  deriving DecidableEq, Repr, Inhabited

namespace Config

/-- `HALT_NOTICE` is OPEN (R7, D17): a free value (safe: log 10). -/
opaque haltNotice : List Word

/-- `IN_PROMPT` is OPEN (R7, D17): a free value (safe: log 10). -/
opaque inPrompt : List Word

/-- What the host will supply is the host's (R9, I7): burst `n` is a free value, drawn at a counter in the state (safe:
log 11, 12). -/
opaque hostBurst : Nat → Burst

/-- Character `n` of an endless burst: a free value (safe: log 11, 12). -/
opaque hostTyped : Nat → Byte

end Config

end Sys2Proof
end

