-- ==== Sys2Proof/Machine/Memory.lean ====
section
/-! DEFINITION. The memory as plain data (10_state.md R34; 20_memory.md R38, R45). The spec's smallest addressable unit is
the 16-bit cell, and no byte order exists inside memory (R42), so memory is a list of (address, cell) pairs (DESIGN CHOICE,
safe: log 19). Canonical form: addresses strictly rising and below 65536, and no entry equal to 0x0000, which is what every
unlisted cell holds (R45). The operations are structural recursions over the list. -/

namespace Sys2Proof.Machine

/-- Cells that do not hold 0x0000, by address. -/
abbrev Memory := List (Nat × Word)

/-- What a cell that is not listed holds: "memory left at its default (zero) elsewhere" (R45, R37). -/
def unlistedCell : Word := 0x0000

/-- The value of the cell at address `a`. -/
def Memory.peek : Memory → Nat → Word
  | [], _ => unlistedCell
  | (b, w) :: m, a => if a = b then w else Memory.peek m a

/-- The memory without an entry for `a`. -/
def Memory.clear : Memory → Nat → Memory
  | [], _ => []
  | (b, w) :: m, a => if a = b then Memory.clear m a else (b, w) :: Memory.clear m a

/-- Put an entry for `a` before the first entry with a higher address. -/
def Memory.enter : Memory → Nat → Word → Memory
  | [], a, v => [(a, v)]
  | (b, w) :: m, a, v => if a < b then (a, v) :: (b, w) :: m else (b, w) :: Memory.enter m a v

/-- `M[a] <- v` in canonical form: writing what an unlisted cell holds removes the entry. -/
def Memory.poke (m : Memory) (a : Nat) (v : Word) : Memory :=
  if v = unlistedCell then m.clear a else (m.clear a).enter a v

/-- Every address of the list is at least `low`, the addresses rise strictly and stay below 65536, and no entry holds what
an unlisted cell holds. -/
def Memory.wfFrom : Nat → Memory → Bool
  | _, [] => true
  | low, (b, w) :: m => decide (low ≤ b) && decide (b < 65536) && decide (w ≠ unlistedCell) && Memory.wfFrom (b + 1) m

/-- The canonical form. -/
def Memory.wf (m : Memory) : Bool := Memory.wfFrom 0 m

end Sys2Proof.Machine
end

