-- ==== Sys2Proof/Machine/Loader.lean ====
section
/-! DEFINITION. The program-loader state machine (70_reset_and_hazards.md R146 to R150). It runs once, inside the reset
sequence, before the first step (R145, R158), so its own state is no part of the machine's State. The cases of an image that
ends inside a word are the spec's decision D20 (log 24). -/

namespace Sys2Proof.Machine

/-- The three states of R146. In LOAD, `a` is the next address to write, an unbounded counter. -/
inductive LoaderPhase where
  | origin
  | load (a : Nat)
  | done
  deriving DecidableEq, Repr

/-- The loader: its phase, the image bytes it has not read (`b[i]` and on), and the memory it writes. -/
structure LoaderState where
  phase : LoaderPhase
  bytes : List Byte
  mem   : Memory
  deriving DecidableEq, Repr

/-- `b[i] * 256 + b[i+1]` (R148): the first byte gives bits 15:8. -/
def imageWord (first second : Byte) : Word := first ++ second

/-- One transition of the table of R146. -/
def loaderStep (l : LoaderState) : LoaderState :=
  match l.phase, l.bytes with
  | .origin, b0 :: b1 :: rest => { l with phase := .load (imageWord b0 b1).toNat, bytes := rest }
  | .origin, _ => { l with phase := .done }
  | .load a, b0 :: b1 :: rest =>
    if a ≤ 0xFFFF then
      { phase := .load (a + 1), bytes := rest, mem := l.mem.poke a (imageWord b0 b1) }
    else { l with phase := .done }
  | .load _, _ => { l with phase := .done }
  | .done, _ => l

/-- `n` transitions. -/
def loaderRun : Nat → LoaderState → LoaderState
  | 0, l => l
  | n + 1, l => loaderRun n (loaderStep l)

/-- The memory after the loader has run to DONE over all-zero memory (R145 phases 1 and 2). Every transition but the one
into DONE reads two bytes, so as many transitions as the image has bytes, and one more, reach DONE. -/
def loadImage (image : List Byte) : Memory :=
  (loaderRun (image.length + 1) ⟨.origin, image, []⟩).mem

end Sys2Proof.Machine
end

