-- ==== Sys2Proof/Machine/Registers.lean ====
section
/-! DEFINITION. The general register file R0..R7 (10_state.md R17): eight 16-bit registers, none hard-wired, no aliases or
banks. PC and COND, the other two slots of R29, are fields of State of their own, since no register field can name them. -/

namespace Sys2Proof.Machine

/-- The general registers (R17). -/
structure Gprs where
  r0 : Word
  r1 : Word
  r2 : Word
  r3 : Word
  r4 : Word
  r5 : Word
  r6 : Word
  r7 : Word
  deriving DecidableEq, Repr, Inhabited

/-- `x[i]` (R14). -/
def Gprs.get (g : Gprs) : Reg → Word
  | .r0 => g.r0
  | .r1 => g.r1
  | .r2 => g.r2
  | .r3 => g.r3
  | .r4 => g.r4
  | .r5 => g.r5
  | .r6 => g.r6
  | .r7 => g.r7

/-- `x[i] <- v` (R14). -/
def Gprs.set (g : Gprs) : Reg → Word → Gprs
  | .r0, v => { g with r0 := v }
  | .r1, v => { g with r1 := v }
  | .r2, v => { g with r2 := v }
  | .r3, v => { g with r3 := v }
  | .r4, v => { g with r4 := v }
  | .r5, v => { g with r5 := v }
  | .r6, v => { g with r6 := v }
  | .r7, v => { g with r7 := v }

end Sys2Proof.Machine
end

