-- ==== Sys2Proof/Machine/Parameters.lean ====
section
/-! DEFINITION. The values the reset sequence gives (70_reset_and_hazards.md R145 phase 3; 00_scope.md R7): the parameters
that only the reset reads, and the values `State.reset` takes. -/

namespace Sys2Proof.Machine

/-- `PC_START`, `INIT_GPR`, `INIT_COND` (R7, R37). -/
structure StartValues where
  pcStart  : Word
  initGpr  : Gprs
  initCond : BitVec 3
  deriving DecidableEq, Repr, Inhabited

/-- What `State.reset` starts from. `PC_START` has the spec's value 0x3000 (R7, D5: PRESUMED by the spec, unsafe: log 4). The
spec leaves `INIT_GPR` and `INIT_COND` open (D6, D7): zero is this model's DESIGN CHOICE (unsafe: log 5, 6). -/
def resetStart : StartValues :=
  { pcStart := 0x3000
    initGpr := ⟨0, 0, 0, 0, 0, 0, 0, 0⟩
    initCond := 0b000 }

/-- The spec's values of the parameters a step reads (R7, D8, D13, D14, D19; log 7), with the two OPEN texts left free
(D17; log 10). -/
def resetParams : Params :=
  { kbsrSetMode := .or
    trapLinksR7 := false
    unknownTrap := .noop
    jsrrOrder := .linkFirst
    haltNotice := Config.haltNotice
    inPrompt := Config.inPrompt }

end Sys2Proof.Machine
end

