-- ==== Sys2Proof/Machine/State.lean ====
section
/-! DEFINITION. The state of the LC3VM core as plain data (10_state.md), the reasons a step can end without a next state, and
the state after reset (R37; 70_reset_and_hazards.md R145). -/

namespace Sys2Proof.Machine

/-- The fault record (R32): the kind of fault with what it records, and `fpc`, the address the faulting instruction was
fetched from (60_exceptions.md R124, R125; D18, D24). -/
inductive FaultRecord where
  /-- kind `InvalidOpcode`: the 4-bit opcode (R124) -/
  | invalidOpcode (op : BitVec 4) (fpc : Word)
  /-- kind `UnknownTrap`: the 8-bit vector (R125) -/
  | unknownTrap (vector : BitVec 8) (fpc : Word)
  deriving DecidableEq, Repr

/-- The run state (R31). The fault record exists only while Faulted: before that its value is unspecified and a model must
not read it (R32, I5; log 17). -/
inductive RunState where
  | running
  | halted
  | faulted (record : FaultRecord)
  deriving DecidableEq, Repr

/-- One event of the console's output (00_scope.md R9). -/
inductive OutEvent where
  /-- `write_char(c)`: a byte, or a whole word from PUTS (D15) -/
  | written (c : Word)
  /-- the console displayed the character that `read_char_echo` returned (R118; log 25) -/
  | echoed (c : Byte)
  deriving DecidableEq, Repr

/-- The state. `keyboard` and `output` are the host's side of the console (R36; log 11) and `params` the parameters
of R7 (log 7): the model's own fields. `output` lists the oldest event first. -/
structure State where
  gpr      : Gprs
  pc       : Word
  cond     : BitVec 3
  run      : RunState
  mem      : Memory
  keyboard : Keyboard
  output   : List OutEvent
  params   : Params
  deriving DecidableEq, Repr

/-- Why the core takes no step to a next state. None of these is a fault of the spec's own (R124, R125): those are next states
in which `run` is Faulted. -/
inductive Fault where
  /-- Raised by `step` when the run state is Halted: no step is taken (R31, R79). Safe: the spec has no next state either. -/
  | halted
  /-- Raised by `step` when the run state is Faulted: no step is taken (R31, R79). Safe: the spec has no next state either. -/
  | faulted
  /-- Raised by GETC and IN when the host supplies no character: the step has no successor until the host gives one, and the
  run is not over (43_trap.md R123, D25; log 13). Safe: the model stops where the hardware waits. -/
  | awaitingHost
  /-- Raised by PUTS and PUTSP when the scan never reads a zero word: a hang inside one step (R117, R119, I9; log 14). Safe: the
  model stops where the hardware runs for ever inside the step. -/
  | scanHang
  deriving DecidableEq, Repr

/-- Why an instruction has no meaning. -/
inductive Refusal where
  /-- Raised by an arm of `exec` that has no meaning yet; no arm is such. Safe: the model stops. -/
  | notModelled (mnemonic : String)
  deriving DecidableEq, Repr

/-- The reset sequence of R145 with every parameter an argument: memory zeroed, the image loaded, the engine initialised.
The image's origin does not set PC (R147). -/
def State.resetWith (start : StartValues) (params : Params) (image : List Byte) (keyboard : Keyboard) : State :=
  { gpr := start.initGpr
    pc := start.pcStart
    cond := start.initCond
    run := .running
    mem := loadImage image
    keyboard := keyboard
    output := []
    params := params }

/-- The machine right after reset, with no image loaded (log 23) and a host whose every answer is free (log 11). -/
def State.reset : State := State.resetWith resetStart resetParams [] ⟨[], .drawn 0⟩

end Sys2Proof.Machine
end

