-- ==== Sys2Proof/Machine/Keyboard.lean ====
section
/-! DEFINITION. The console operations that take an answer from the host (00_scope.md R9, 60_exceptions.md R141), as functions
of the host's future answers (log 11, 12). -/

namespace Sys2Proof

/-- The character that ends a `Burst.paused`: one that is not ready at once, or NUL (log 12). -/
def KeyEvent.pausing (delay : Nat) (code : Byte) : KeyEvent := if delay = 0 then ⟨0, 0⟩ else ⟨delay, code⟩

/-- A character of an endless burst: any but NUL (log 12). -/
def nonNul (c : Byte) : Byte := if c = 0 then 1 else c

/-- What burst `bursts` settles, once drawn. -/
def Burst.settle (bursts : Nat) : Burst → Keyboard
  | .paused ready delay code => ⟨ready.map (⟨0, ·⟩) ++ [KeyEvent.pausing delay code], .drawn (bursts + 1)⟩
  | .final ready => ⟨ready.map (⟨0, ·⟩), .silent⟩
  | .endless => ⟨[⟨0, nonNul (Config.hostTyped 0)⟩], .endless 1⟩

/-- Settles what comes next when nothing is pending: afterwards nothing is pending only if the host supplies nothing more. -/
def Keyboard.refill (k : Keyboard) : Keyboard :=
  match k.pending, k.supply with
  | _ :: _, _ => k
  | [], .silent => k
  | [], .endless n => ⟨[⟨0, nonNul (Config.hostTyped n)⟩], .endless (n + 1)⟩
  | [], .drawn n => (Config.hostBurst n).settle n

/-- `poll_ready()` and, when it answers true, the `read_char_no_echo()` that follows it at once (20_memory.md R53, D9; log 8).
`none`: the poll answered false. It never blocks (R52). -/
def Keyboard.poll (k : Keyboard) : Keyboard × Option Byte :=
  match k.refill.pending with
  | ⟨0, c⟩ :: rest => (⟨rest, k.refill.supply⟩, some c)
  | ⟨d + 1, c⟩ :: rest => (⟨⟨d, c⟩ :: rest, k.refill.supply⟩, none)
  | [] => (k.refill, none)

/-- A blocking read, `read_char_no_echo()` or `read_char_echo()`: the next character, whatever its delay, and what is left.
`none`: the host never supplies another character. -/
def Keyboard.read (k : Keyboard) : Option (Byte × Keyboard) :=
  match k.refill.pending with
  | e :: rest => some (e.code, ⟨rest, k.refill.supply⟩)
  | [] => none

/-- A bound on the polls that find a character before one that answers false or finds NUL, or before the host turns out to
supply characters without end (log 14). -/
def Keyboard.ahead (k : Keyboard) : Nat :=
  k.pending.length +
    match k.supply with
    | .silent | .endless _ => 0
    | .drawn n =>
      match Config.hostBurst n with
      | .paused ready _ _ => ready.length + 1
      | .final ready => ready.length
      | .endless => 0

end Sys2Proof
end

