-- ==== Sys2Proof/Machine/Ops.lean ====
section
/-! DEFINITION. The named operations over registers, memory and the console (00_scope.md R14 to R16; 20_memory.md R48 to R53),
the instruction fetch (30_encoding.md R76), and taking a fault (60_exceptions.md R124, R125, R129). There is no return from a
fault: Faulted is terminal (R130, R133). -/

namespace Sys2Proof.Machine

/-- `x[i]` (R14). -/
def State.reg (s : State) (r : Reg) : Word := s.gpr.get r

/-- `x[i] <- v` (R14). -/
def State.setReg (s : State) (r : Reg) (v : Word) : State := { s with gpr := s.gpr.set r v }

/-- `pc <- t` (R14). -/
def State.setPc (s : State) (t : Word) : State := { s with pc := t }

/-- The contents of the cell at `a`, with no side effect: what a plain read returns (R50). -/
def State.cell (s : State) (a : Word) : Word := s.mem.peek a.toNat

/-- `MemWrite(a, 1, v)` (R48): a plain store at every address, 0xFE00 and 0xFE02 included (R49, D11; log 9). -/
def memWrite (s : State) (a v : Word) : State := { s with mem := s.mem.poke a.toNat v }

/-- The keyboard status cell (R46). -/
def kbsr : Word := 0xFE00

/-- The keyboard data cell (R46). -/
def kbdr : Word := 0xFE02

/-- What a ready poll makes of the status cell (R53, `KBSR_SET_MODE`, D8; log 8). -/
def readyStatus (mode : KbsrSetMode) (old : Word) : Word :=
  match mode with
  | .or => old ||| 0x8000
  | .assign => 0x8000

/-- `zext_16` of a byte (R13, D12). -/
def zext (c : Byte) : Word := c.setWidth 16

/-- The host's side after it has answered: what it will answer from then on (R9; log 11). -/
def State.setKeyboard (s : State) (k : Keyboard) : State := { s with keyboard := k }

/-- The side effect of a read of 0xFE00 (R53). -/
def pollKeyboard (s : State) : State :=
  match s.keyboard.poll with
  | (k, some c) =>
    memWrite (memWrite (s.setKeyboard k) kbsr (readyStatus s.params.kbsrSetMode (s.cell kbsr))) kbdr (zext c)
  | (k, none) => memWrite (s.setKeyboard k) kbsr 0x0000

/-- What a read of address `a` does before it returns: nothing, but for 0xFE00, whoever reads it (R50, R51, D10; log 9). -/
def readEffect (s : State) (a : Word) : State := if a = kbsr then pollKeyboard s else s

/-- `MemRead(a, 1)` (R15, R53): the side effect first, then the value of the cell. -/
def memRead (s : State) (a : Word) : Word × State := ((readEffect s a).cell a, readEffect s a)

/-- A call of `write_char` for each character, in order (R9). -/
def State.write (s : State) (cs : List Word) : State := { s with output := s.output ++ cs.map .written }

/-- The console displays the character it has just given to `read_char_echo` (R9, R118; log 25). -/
def State.echo (s : State) (c : Byte) : State := { s with output := s.output ++ [.echoed c] }

/-- A blocking read of one character, `read_char_no_echo()` or `read_char_echo()` (R9, R115, R118). `none`: the host never
supplies one, and the core waits (R123). -/
def readChar (s : State) : Option (Byte × State) :=
  match s.keyboard.read with
  | some (c, k) => some (c, s.setKeyboard k)
  | none => none

/-- The first half of a step (R76): the word at PC, and the state in which it executes: its read's side effect done and PC
already incremented, modulo 65536 (R21, R23). -/
def fetch (s : State) : Word × State :=
  let (w, s1) := memRead s s.pc
  (w, s1.setPc (s.pc + 1))

/-- `fpc`, the address the executing instruction was fetched from: one less than the incremented PC, modulo 65536 (R76;
DEDUCED, safe: log 18). -/
def State.fpc (s : State) : Word := s.pc - 1

/-- Taking a fault (R16, R124, R125): run state Faulted and the record, `fpc` in it; nothing else is written (R129). -/
def raiseFault (s : State) (record : Word → FaultRecord) : State := { s with run := .faulted (record s.fpc) }

/-- `halt()` (R16): run state Halted. -/
def haltCore (s : State) : State := { s with run := .halted }

end Sys2Proof.Machine
end

