-- ==== Sys2Proof/Machine/Operands.lean ====
section
/-! DEFINITION. The datapath units that form operands and addresses (40_alu_operate.md R84 to R87, R91; 42_load_store.md R105).
In every one `pc` is the incremented PC. -/

namespace Sys2Proof.Machine

/-- `sext_N` (00_scope.md R12; R86). -/
def sext {n : Nat} (v : BitVec n) : Word := v.signExtend 16

/-- `ADD16` (R87). -/
def add16 (a b : Word) : Word := a + b

/-- `AND16` (R87). -/
def and16 (a b : Word) : Word := a &&& b

/-- `NOT16` (R87). -/
def not16 (a : Word) : Word := ~~~a

/-- The second operand of ADD and AND: the register of the register mode or the extended field of the immediate mode. -/
inductive OperandB where
  | register (sr2 : Reg)
  | immediate (imm5 : BitVec 5)
  deriving DecidableEq, Repr

/-- The operand-B multiplexer (R85). -/
def operandB (s : State) : OperandB → Word
  | .register sr2 => s.reg sr2
  | .immediate imm5 => sext imm5

/-- The address adder with the incremented PC as base (R91, R105: PC-relative). -/
def pcRelative {n : Nat} (s : State) (off : BitVec n) : Word := s.pc + sext off

/-- The address adder with a base register (R91, R105: base + offset). -/
def baseOffset (s : State) (baseR : Reg) (off6 : BitVec 6) : Word := s.reg baseR + sext off6

end Sys2Proof.Machine
end

