-- ==== Sys2Proof/Machine/Flags.lean ====
section
/-! DEFINITION. The condition-code generator (40_alu_operate.md R89, R90). COND is N, Z, P as bits 2, 1, 0 (10_state.md R25,
the spec's decision D3: log 2). -/

namespace Sys2Proof.Machine

/-- The code of a value (R89). -/
def condOf (v : Word) : BitVec 3 :=
  if v = 0x0000 then 0b010
  else if v.getLsbD 15 then 0b100
  else 0b001

/-- `setcc(v)` (R89). -/
def setcc (s : State) (v : Word) : State := { s with cond := condOf v }

/-- `x[dr] <- v; setcc(v)`: the end of every flag-updating instruction (R90). -/
def writeResult (s : State) (dr : Reg) (v : Word) : State := setcc (s.setReg dr v) v

end Sys2Proof.Machine
end

