-- ==== Sys2Proof/Machine/Control.lean ====
section
/-! DEFINITION. Control transfer: BR, JMP, JSR, JSRR (41_control.md R99 to R104). None writes COND, none raises a fault. -/

namespace Sys2Proof.Machine

/-- BR (R99). -/
def execBr (mask : BitVec 3) (off9 : BitVec 9) (s : State) : Host.Outcome State Fault Refusal :=
  .next (if mask &&& s.cond ≠ 0b000 then s.setPc (pcRelative s off9) else s)

/-- JMP, and RET when the base is R7 (R100). -/
def execJmp (baseR : Reg) (s : State) : Host.Outcome State Fault Refusal :=
  .next (s.setPc (s.reg baseR))

/-- R7 <- the incremented PC (R101, R102, R104). -/
def linkR7 (s : State) : State := s.setReg .r7 s.pc

/-- JSR (R101). -/
def execJsr (off11 : BitVec 11) (s : State) : Host.Outcome State Fault Refusal :=
  .next ((linkR7 s).setPc (pcRelative s off11))

/-- JSRR (R102). The two orders differ only for base R7 (`JSRR_ORDER`, D19; log 20). -/
def execJsrr (baseR : Reg) (s : State) : Host.Outcome State Fault Refusal :=
  match s.params.jsrrOrder with
  | .linkFirst => .next ((linkR7 s).setPc ((linkR7 s).reg baseR))
  | .baseFirst => .next ((linkR7 s).setPc (s.reg baseR))

end Sys2Proof.Machine
end

