-- ==== Sys2Proof/Machine/LoadStore.lean ====
section
/-! DEFINITION. Loads and stores: LD, LDI, LDR, LEA, ST, STI, STR (42_load_store.md R105 to R113). Every read may poll the
console (20_memory.md R51); the pointer read comes before the data access (R57). -/

namespace Sys2Proof.Machine

/-- Read the cell at `ea` and write it to DR with the flags (R106 to R108). -/
def loadFrom (s : State) (dr : Reg) (ea : Word) : State :=
  let (v, s1) := memRead s ea
  writeResult s1 dr v

/-- LD (R106). -/
def execLd (dr : Reg) (off9 : BitVec 9) (s : State) : Host.Outcome State Fault Refusal :=
  .next (loadFrom s dr (pcRelative s off9))

/-- LDI (R107). -/
def execLdi (dr : Reg) (off9 : BitVec 9) (s : State) : Host.Outcome State Fault Refusal :=
  let (p, s1) := memRead s (pcRelative s off9)
  .next (loadFrom s1 dr p)

/-- LDR (R108). -/
def execLdr (dr baseR : Reg) (off6 : BitVec 6) (s : State) : Host.Outcome State Fault Refusal :=
  .next (loadFrom s dr (baseOffset s baseR off6))

/-- LEA: the address, no memory access (R109). -/
def execLea (dr : Reg) (off9 : BitVec 9) (s : State) : Host.Outcome State Fault Refusal :=
  .next (writeResult s dr (pcRelative s off9))

/-- ST (R110). -/
def execSt (sr : Reg) (off9 : BitVec 9) (s : State) : Host.Outcome State Fault Refusal :=
  .next (memWrite s (pcRelative s off9) (s.reg sr))

/-- STI (R111). -/
def execSti (sr : Reg) (off9 : BitVec 9) (s : State) : Host.Outcome State Fault Refusal :=
  let (p, s1) := memRead s (pcRelative s off9)
  .next (memWrite s1 p (s.reg sr))

/-- STR (R112). -/
def execStr (sr baseR : Reg) (off6 : BitVec 6) (s : State) : Host.Outcome State Fault Refusal :=
  .next (memWrite s (baseOffset s baseR off6) (s.reg sr))

end Sys2Proof.Machine
end

