-- ==== Sys2Proof/Machine/Operate.lean ====
section
/-! DEFINITION. The operate instructions ADD, AND, NOT (40_alu_operate.md R92 to R96). Sources are read before the destination
is written (10_state.md R20). -/

namespace Sys2Proof.Machine

/-- ADD, register mode (R92). -/
def execAddReg (dr sr1 sr2 : Reg) (s : State) : Host.Outcome State Fault Refusal :=
  .next (writeResult s dr (add16 (s.reg sr1) (operandB s (.register sr2))))

/-- ADD, immediate mode (R93). -/
def execAddImm (dr sr1 : Reg) (imm5 : BitVec 5) (s : State) : Host.Outcome State Fault Refusal :=
  .next (writeResult s dr (add16 (s.reg sr1) (operandB s (.immediate imm5))))

/-- AND, register mode (R94). -/
def execAndReg (dr sr1 sr2 : Reg) (s : State) : Host.Outcome State Fault Refusal :=
  .next (writeResult s dr (and16 (s.reg sr1) (operandB s (.register sr2))))

/-- AND, immediate mode (R95). -/
def execAndImm (dr sr1 : Reg) (imm5 : BitVec 5) (s : State) : Host.Outcome State Fault Refusal :=
  .next (writeResult s dr (and16 (s.reg sr1) (operandB s (.immediate imm5))))

/-- NOT (R96). -/
def execNot (dr sr : Reg) (s : State) : Host.Outcome State Fault Refusal :=
  .next (writeResult s dr (not16 (s.reg sr)))

end Sys2Proof.Machine
end

