-- ==== Sys2Proof/Machine/Reserved.lean ====
section
/-! DEFINITION. The two reserved opcodes: InvalidOpcode (30_encoding.md R72; 60_exceptions.md R124, R129). -/

namespace Sys2Proof.Machine

/-- Opcode 8 (R124). -/
def execReserved8 (s : State) : Host.Outcome State Fault Refusal :=
  .next (raiseFault s (.invalidOpcode 8))

/-- Opcode 13 (R124). -/
def execReserved13 (s : State) : Host.Outcome State Fault Refusal :=
  .next (raiseFault s (.invalidOpcode 13))

end Sys2Proof.Machine
end

