-- ==== Sys2Proof/Machine/Trap.lean ====
section
/-! DEFINITION. TRAP and its emulated services (43_trap.md R114 to R123). A service runs inside the TRAP step, writes no register
but the one its rule names, and never COND (R122, D26; log 21). -/

namespace Sys2Proof.Machine

/-- The service a vector selects (R114). -/
inductive Service where
  | getc | out | puts | inChar | putsp | halt | unknown
  deriving DecidableEq, Repr

/-- The dispatch on the vector (R114, R71). -/
def serviceOf (v : BitVec 8) : Service :=
  if v = 0x20 then .getc
  else if v = 0x21 then .out
  else if v = 0x22 then .puts
  else if v = 0x23 then .inChar
  else if v = 0x24 then .putsp
  else if v = 0x25 then .halt
  else .unknown

/-- GETC (R115): with no character to come the core waits (R123; log 13). -/
def serviceGetc (s : State) : Host.Outcome State Fault Refusal :=
  match readChar s with
  | some (c, s1) => .next (s1.setReg .r0 (zext c))
  | none => .fault .awaitingHost

/-- The low byte of a word as a character code: `v[7:0]` (R116, R119). -/
def lowChar (v : Word) : Word := v &&& 0x00FF

/-- `v[15:8]` as a character code (R119). -/
def highChar (v : Word) : Word := v >>> 8

/-- OUT (R116). -/
def serviceOut (s : State) : Host.Outcome State Fault Refusal :=
  .next (s.write [lowChar (s.reg .r0)])

/-- The scan of PUTS and PUTSP (R117, R119): read cells at rising addresses modulo 65536, write what `chars` makes of
each, stop at a zero cell. `none`: `fuel` reads met no zero cell. -/
def scan (chars : Word → List Word) : Nat → Word → State → Option State
  | 0, _, _ => none
  | fuel + 1, a, s =>
    let (c, s1) := memRead s a
    if c = 0x0000 then some s1 else scan chars fuel (a + 1) (s1.write (chars c))

/-- Reads after which a scan that has met no zero cell never meets one (log 14). Each lap of 65536 reads polls the console once.
A poll that answers false reads as zero, and NUL makes 0xFE02 zero, so each lap takes a ready character that is not NUL. After
`ahead` laps only a host that supplies such characters without end is left, and from the second lap of that host on every
cell stays nonzero. -/
def scanFuel (s : State) : Nat := 65536 * (s.keyboard.ahead + 2)

/-- A scan as a service: it ends, or it is a hang inside the step (R117, I9; log 14). -/
def serviceScan (chars : Word → List Word) (s : State) : Host.Outcome State Fault Refusal :=
  match scan chars (scanFuel s) (s.reg .r0) s with
  | some t => .next t
  | none => .fault .scanHang

/-- What PUTS writes for a cell: the whole word (R117, D15; log 15). -/
def putsChars (c : Word) : List Word := [c]

/-- What PUTSP writes for a cell: the low byte always, then the high byte if it is not zero (R119, D16; log 15). -/
def putspChars (v : Word) : List Word :=
  if highChar v = 0 then [lowChar v] else [lowChar v, highChar v]

/-- PUTS (R117). -/
def servicePuts (s : State) : Host.Outcome State Fault Refusal := serviceScan putsChars s

/-- PUTSP (R119). -/
def servicePutsp (s : State) : Host.Outcome State Fault Refusal := serviceScan putspChars s

/-- IN (R118): the prompt, then a blocking read that the console echoes. -/
def serviceIn (s : State) : Host.Outcome State Fault Refusal :=
  match readChar (s.write s.params.inPrompt) with
  | some (c, s1) => .next ((s1.echo c).setReg .r0 (zext c))
  | none => .fault .awaitingHost

/-- HALT (R120). -/
def serviceHalt (s : State) : Host.Outcome State Fault Refusal :=
  .next (haltCore (s.write s.params.haltNotice))

/-- A vector with no service (R121, R125, `UNKNOWN_TRAP`, D14; log 22). -/
def serviceUnknown (v : BitVec 8) (s : State) : Host.Outcome State Fault Refusal :=
  match s.params.unknownTrap with
  | .noop => .next s
  | .fault => .next (raiseFault s (.unknownTrap v))

/-- `if TRAP_LINKS_R7: x[7] <- pc` (R114, D13; log 21). -/
def trapLink (s : State) : State := if s.params.trapLinksR7 then linkR7 s else s

/-- TRAP (R114). PC stays at the incremented value. -/
def execTrap (v : BitVec 8) (s : State) : Host.Outcome State Fault Refusal :=
  match serviceOf v with
  | .getc => serviceGetc (trapLink s)
  | .out => serviceOut (trapLink s)
  | .puts => servicePuts (trapLink s)
  | .inChar => serviceIn (trapLink s)
  | .putsp => servicePutsp (trapLink s)
  | .halt => serviceHalt (trapLink s)
  | .unknown => serviceUnknown v (trapLink s)

end Sys2Proof.Machine
end

