-- ==== Sys2Proof/Machine/Step.lean ====
section
/-! DEFINITION. One step: a whole instruction (30_encoding.md R76 to R79; 00_scope.md R8). -/

namespace Sys2Proof.Machine

/-- `step()` of R76: taken only while the run state is Running; in Halted and Faulted no step is taken (R31, R79; log 16). -/
def step (s : State) : Host.Outcome State Fault Refusal :=
  match s.run with
  | .running => exec (decode (fetch s).1) (fetch s).2
  | .halted => .fault .halted
  | .faulted _ => .fault .faulted

/-- The state with an instruction word stored in the cell PC names, where a running core fetches next (R76). At PC = 0xFE00 the
fetch itself rewrites that cell (R51), so there the word is not what the core executes. -/
def State.withFetchWord (s : State) (nbits w : Nat) : State := memWrite s s.pc (BitVec.ofNat 16 (w % 2 ^ nbits))

end Sys2Proof.Machine
end

