-- ==== Sys2Proof/Safety.lean ====
section
/-! DEFINITION. The terms claims are stated in: when a run has ended (60_exceptions.md R142), what a legal condition code is
(10_state.md R28), and what it means that a part of the state is kept (the frames). `s` is the state before, `t` after. -/

namespace Sys2Proof.Machine

/-- The run is over: Halted or Faulted (R142). -/
def State.Ended (s : State) : Prop := s.run ≠ .running

/-- Exactly one of N, Z, P is set (R28). -/
def OneFlag (c : BitVec 3) : Prop := c = 0b100 ∨ c = 0b010 ∨ c = 0b001

/-- The same state but for COND. -/
def State.withCond (s : State) (c : BitVec 3) : State := { s with cond := c }

/-- The numbers R126 offers for the fault kinds. -/
def FaultRecord.kindNumber : FaultRecord → Nat
  | .invalidOpcode _ _ => 1
  | .unknownTrap _ _ => 2

/-- Every general register but those listed is unchanged. -/
def RegsKept (but : List Reg) (s t : State) : Prop := ∀ r, r ∉ but → t.reg r = s.reg r

/-- Every memory cell but those listed is unchanged. -/
def MemKept (but : List Word) (s t : State) : Prop := ∀ a, a ∉ but → t.cell a = s.cell a

/-- The host's side of the console is unchanged: no character taken, no poll made, nothing written. -/
def ConsoleKept (s t : State) : Prop := t.keyboard = s.keyboard ∧ t.output = s.output

/-- The run state, with its fault record, and the parameters are unchanged. -/
def ControlKept (s t : State) : Prop := t.run = s.run ∧ t.params = s.params

/-- All that an instruction may do whose only effect is a result in `dr` with the condition codes (R90). -/
def OnlyResult (dr : Reg) (s t : State) : Prop :=
  RegsKept [dr] s t ∧ t.pc = s.pc ∧ MemKept [] s t ∧ ConsoleKept s t ∧ ControlKept s t

/-- All that an instruction may do whose only effect is on PC and the registers listed. -/
def OnlyPc (but : List Reg) (s t : State) : Prop :=
  RegsKept but s t ∧ t.cond = s.cond ∧ MemKept [] s t ∧ ConsoleKept s t ∧ ControlKept s t

/-- All that an instruction may do whose only effect is a store to the cell `a`. -/
def OnlyStore (a : Word) (s t : State) : Prop :=
  RegsKept [] s t ∧ t.pc = s.pc ∧ t.cond = s.cond ∧ MemKept [a] s t ∧ ConsoleKept s t ∧ ControlKept s t

/-- All that an instruction may do whose only effect is a result in `dr` read from memory: where a read is of 0xFE00, the poll
changes the two keyboard cells and the characters to come (R53). -/
def OnlyLoad (dr : Reg) (s t : State) : Prop :=
  RegsKept [dr] s t ∧ t.pc = s.pc ∧ MemKept [kbsr, kbdr] s t ∧ t.output = s.output ∧ ControlKept s t

/-- The registers TRAP writes besides those of its service (43_trap.md R114, `TRAP_LINKS_R7`). -/
def linkRegs (p : Params) : List Reg := if p.trapLinksR7 then [.r7] else []

/-- What every TRAP that completes has in common: no register is written but those listed and, if `TRAP_LINKS_R7`, R7 with
the incremented PC; PC, COND and the parameters are unchanged (R114, R122). -/
def OnlyService (but : List Reg) (s t : State) : Prop :=
  RegsKept (but ++ linkRegs s.params) s t ∧ (s.params.trapLinksR7 = true → t.reg .r7 = s.pc) ∧
    t.pc = s.pc ∧ t.cond = s.cond ∧ t.params = s.params

end Sys2Proof.Machine
end

