-- ==== Sys2Proof/Certificates/Slice0/Obligations.lean ====
section
/-! DEFINITION. The statements for the provers, from the numbered rules of spec/. `s` is the state before and `t` after; in a
statement about `exec`, `s` is the state after the fetch, so `s.pc` is the incremented PC. `kbsr` is the address 0xFE00 and `kbdr`
0xFE02 (`StatusReadPolls` says so). `condOf`, `memRead`, `decode` and the
frames of Safety.lean are the model's own functions; statements of their own pin the first three to their rules. -/

open Sys2Proof Sys2Proof.Machine

/-! ### Encoding and decoding -/

/-- The decoder reads back every instruction the encoder writes, whatever its operands (30_encoding.md R65 to R71). The
layout is the spec's decision D2 (log 1). -/
def Obligations.DecodeOfEncodeIsIdentity : Prop :=
  ∀ i : Instr, i.wellFormed = true → decode (encode i) = i

/-- The encoder gives back, of every word, all the bits its row names or fixes, and zeros for the ignored ones (R65, R72,
R73; D2, D4, log 1, 3). -/
def Obligations.EncodeOfDecodeKeepsNamedBits : Prop :=
  ∀ w : Word, ∀ r ∈ opcodeTable, r.form = (decode w).form → encode (decode w) = w &&& r.named

/-- Each of the 65536 words belongs to exactly one row of the opcode table, and the decoder gives that row's form (R66,
R72, R77; D2, log 1). -/
def Obligations.EveryWordBelongsToOneRow : Prop :=
  ∀ w : Word, ∃ r ∈ opcodeTable, r.accepts w = true ∧ r.form = (decode w).form ∧
    ∀ q ∈ opcodeTable, q.accepts w = true → q = r

/-- R75: every word is decoded by its bits 15:12 alone, plus bit 5 for ADD and AND and bit 11 for opcode 4: two words that
agree there are the same instruction form. -/
def Obligations.FormDependsOnOpcodeAndModeBits : Prop :=
  ∀ v w : Word, v &&& 0xF000 = w &&& 0xF000 →
    ((w &&& 0xF000 = 0x1000 ∨ w &&& 0xF000 = 0x5000) → v.getLsbD 5 = w.getLsbD 5) →
    (w &&& 0xF000 = 0x4000 → v.getLsbD 11 = w.getLsbD 11) →
    (decode v).form = (decode w).form

/-- R73, the spec's decision D4 (log 3): flipping any of the ignored bits, bits 4:3 of ADD and AND in register mode, 5:0 of NOT,
11:9 and 5:0 of JMP, 10:9 and 5:0 of JSRR, 11:8 of TRAP, leaves the same instruction. -/
def Obligations.IgnoredBitsChangeNothing : Prop :=
  ∀ w flips : Word,
    (w &&& 0xF020 = 0x1000 ∨ w &&& 0xF020 = 0x5000 → decode (w ^^^ (flips &&& 0x0018)) = decode w) ∧
    (w &&& 0xF000 = 0x9000 → decode (w ^^^ (flips &&& 0x003F)) = decode w) ∧
    (w &&& 0xF000 = 0xC000 → decode (w ^^^ (flips &&& 0x0E3F)) = decode w) ∧
    (w &&& 0xF800 = 0x4000 → decode (w ^^^ (flips &&& 0x063F)) = decode w) ∧
    (w &&& 0xF000 = 0xF000 → decode (w ^^^ (flips &&& 0x0F00)) = decode w)

/-- A few words of the spec, one or more of each family (R83 and the examples of R92 to R120; D2, log 1). -/
def Obligations.SampleWordsDecode : Prop :=
  decode 0x1225 = .addImm .r1 .r0 5 ∧ decode 0xD000 = .reserved13 ∧ decode 0x1283 = .addReg .r1 .r2 .r3 ∧
  decode 0x92BF = .not .r1 .r2 ∧ decode 0x0C02 = .br 0b110 2 ∧ decode 0x4805 = .jsr 5 ∧ decode 0x40C0 = .jsrr .r3 ∧
  decode 0xC1C0 = .jmp .r7 ∧ decode 0x673E = .ldr .r3 .r4 62 ∧ decode 0xB202 = .sti .r1 2 ∧
  decode 0x7285 = .str .r1 .r2 5 ∧ decode 0xF025 = .trap 0x25

/-! ### The step and the end of a run -/

/-- The instruction cycle (R76): a running core reads the word at PC through `MemRead`, increments PC before it executes, and
executes the instruction that word decodes to. -/
def Obligations.StepRunsTheDecodedInstruction : Prop :=
  ∀ s : State, s.run = .running →
    step s = exec (decode (memRead s s.pc).1) { (memRead s s.pc).2 with pc := s.pc + 1 }

/-- No step is taken when the run state is Halted or Faulted (R79). The outcomes `Fault.halted` and `Fault.faulted` are the
model's form of "no step" (DEDUCED, log 16). -/
def Obligations.NoStepInTerminalStates : Prop :=
  ∀ s : State, (s.run = .halted → step s = .fault .halted) ∧ (∀ r, s.run = .faulted r → step s = .fault .faulted)

/-- R31, R144 (the spec's decisions D14, D18, D23; log 16, 17, 22): a step starts from Running, and ends in Halted only by the HALT
service and in Faulted only by a reserved opcode, or by an unknown vector when `UNKNOWN_TRAP` is Fault; the record holds the
address the instruction was fetched from. -/
def Obligations.OnlyHaltAndFaultsEndARun : Prop :=
  ∀ s t : State, step s = .next t →
    s.run = .running ∧
    (t.run = .running ∨
     (t.run = .halted ∧ decode (memRead s s.pc).1 = .trap 0x25) ∨
     (t.run = .faulted (.invalidOpcode 8 s.pc) ∧ decode (memRead s s.pc).1 = .reserved8) ∨
     (t.run = .faulted (.invalidOpcode 13 s.pc) ∧ decode (memRead s s.pc).1 = .reserved13) ∨
     (∃ v, t.run = .faulted (.unknownTrap v s.pc) ∧ decode (memRead s s.pc).1 = .trap v ∧
       (v.toNat < 0x20 ∨ 0x25 < v.toNat) ∧ s.params.unknownTrap = .fault))

/-- No execution ever answers a refusal, and none but TRAP fails to complete: a GETC or IN for which the host has no character
(R123), a PUTS or PUTSP scan that does not end (R117) (R127; log 13, 14). -/
def Obligations.EveryInstructionCompletesButWaitingTraps : Prop :=
  ∀ (i : Instr) (s : State),
    (∃ t, exec i s = .next t) ∨
    ((i = .trap 0x20 ∨ i = .trap 0x23) ∧ s.keyboard.read = none ∧ exec i s = .fault .awaitingHost) ∨
    ((i = .trap 0x22 ∨ i = .trap 0x24) ∧ exec i s = .fault .scanHang)

/-! ### Reset and loader -/

/-- The reset sequence (70_reset_and_hazards.md R145, 10_state.md R37), for every choice of the open parameters and every
image: registers, COND and PC at their parameters, Running, memory as loaded, and all cells zero for an empty image. -/
def Obligations.ResetSequenceInitialises : Prop :=
  ∀ (start : StartValues) (params : Params) (image : List Byte) (keyboard : Keyboard),
    (∀ r, (State.resetWith start params image keyboard).reg r = start.initGpr.get r) ∧
    (State.resetWith start params image keyboard).cond = start.initCond ∧
    (State.resetWith start params image keyboard).pc = start.pcStart ∧
    (State.resetWith start params image keyboard).run = .running ∧
    (State.resetWith start params image keyboard).mem = loadImage image ∧
    ∀ a : Word, (State.resetWith start params [] keyboard).cell a = 0

/-- `State.reset`: PC at the spec's `PC_START` 0x3000 (D5, log 4), Running, every cell zero (R37); R0..R7 zero and COND
0b000 are this model's choice (DESIGN CHOICE, log 5, 6), and the spec's values of the parameters (log 7). -/
def Obligations.StateAfterReset : Prop :=
  State.reset.pc = 0x3000 ∧ State.reset.run = .running ∧ (∀ a : Word, State.reset.cell a = 0) ∧
  (∀ r, State.reset.reg r = 0) ∧ State.reset.cond = 0b000 ∧
  State.reset.params.kbsrSetMode = .or ∧ State.reset.params.trapLinksR7 = false ∧
  State.reset.params.unknownTrap = .noop ∧ State.reset.params.jsrrOrder = .linkFirst

/-- The memory after reset is in canonical form (log 19). -/
def Obligations.MemoryIsCanonicalAtReset : Prop :=
  State.reset.mem.wf = true

/-- The memory is in canonical form after a reset with any image. -/
def Obligations.MemoryIsCanonicalAfterLoading : Prop :=
  ∀ image : List Byte, (loadImage image).wf = true

/-- R148, R149: after the origin word `o`, word `k` of the image, its first byte bits 15:8, is stored at `o + k`; words past
0xFFFF are ignored, and every other cell is 0x0000. -/
def Obligations.LoaderPlacesWordsFromTheOrigin : Prop :=
  ∀ (o : Word) (words : List Word) (a : Word),
    (loadImage ((o :: words).flatMap fun w => [w.extractLsb' 8 8, w.extractLsb' 0 8])).peek a.toNat =
      if o.toNat ≤ a.toNat then words.getD (a.toNat - o.toNat) 0 else 0

/-- R150, the spec's decision D20 (log 24): an image of fewer than two bytes loads nothing, and a final odd byte is ignored. -/
def Obligations.LoaderIgnoresPartialWords : Prop :=
  (∀ image : List Byte, image.length < 2 → loadImage image = []) ∧
  ∀ (image : List Byte) (b : Byte), image.length % 2 = 0 → loadImage (image ++ [b]) = loadImage image

/-! ### Datapath units -/

/-- R12: sign extension by its bits, by its numeric value, and the identity at width 16. -/
def Obligations.SignExtension : Prop :=
  (∀ n : Nat, 0 < n → n < 16 → ∀ v : BitVec n,
    sext v = (if v.getLsbD (n - 1) then (v.setWidth 16 ||| (0xFFFF#16 <<< n)) &&& 0xFFFF#16 else v.setWidth 16) ∧
    (sext v).toInt = if v.getLsbD (n - 1) then (v.toNat : Int) - 2 ^ n else (v.toNat : Int)) ∧
  ∀ v : Word, sext v = v

/-- R89 (bit values by the spec's decision D3, log 2): zero gives Z, bit 15 gives N, every other value P, and `setcc` writes
COND and nothing else. -/
def Obligations.ConditionCodeGenerator : Prop :=
  (∀ v : Word, (v = 0 → condOf v = 0b010) ∧ (v ≠ 0 → v.getLsbD 15 = true → condOf v = 0b100) ∧
    (v ≠ 0 → v.getLsbD 15 = false → condOf v = 0b001)) ∧
  ∀ (s : State) (v : Word), setcc s v = { s with cond := condOf v }

/-- R87, R97: the sum is the exact sum modulo 65536 in the unsigned and in the signed reading, and `a - b` is
`ADD16(a, ADD16(NOT16(b), 1))`. -/
def Obligations.ArithmeticWraps : Prop :=
  ∀ a b : Word, (add16 a b).toNat = (a.toNat + b.toNat) % 65536 ∧ (add16 a b).toInt = (a.toInt + b.toInt).bmod 65536 ∧
    (add16 a (add16 (not16 b) 1)).toInt = (a.toInt - b.toInt).bmod 65536

/-! ### Operate instructions -/

/-- R92: ADD in register mode: its words, its result, its flags, and that it does nothing else. -/
def Obligations.AddRegisterMode : Prop :=
  (∀ w : Word, w &&& 0xF020 = 0x1000 → decode w =
    .addReg (Reg.ofBits (w.extractLsb' 9 3)) (Reg.ofBits (w.extractLsb' 6 3)) (Reg.ofBits (w.extractLsb' 0 3))) ∧
  ∀ (dr sr1 sr2 : Reg) (s : State), ∃ t, exec (.addReg dr sr1 sr2) s = .next t ∧
    t.reg dr = s.reg sr1 + s.reg sr2 ∧ t.cond = condOf (s.reg sr1 + s.reg sr2) ∧ OnlyResult dr s t

/-- R93: ADD in immediate mode, and the agreement of the two modes of ADD and of AND. -/
def Obligations.AddImmediateMode : Prop :=
  (∀ w : Word, w &&& 0xF020 = 0x1020 → decode w =
    .addImm (Reg.ofBits (w.extractLsb' 9 3)) (Reg.ofBits (w.extractLsb' 6 3)) (w.extractLsb' 0 5)) ∧
  (∀ (dr sr1 : Reg) (imm5 : BitVec 5) (s : State), ∃ t, exec (.addImm dr sr1 imm5) s = .next t ∧
    t.reg dr = s.reg sr1 + sext imm5 ∧ t.cond = condOf (s.reg sr1 + sext imm5) ∧ OnlyResult dr s t) ∧
  ∀ (dr sr1 sr2 : Reg) (imm5 : BitVec 5) (s : State), s.reg sr2 = sext imm5 →
    exec (.addReg dr sr1 sr2) s = exec (.addImm dr sr1 imm5) s ∧
    exec (.andReg dr sr1 sr2) s = exec (.andImm dr sr1 imm5) s

/-- R94: AND in register mode. -/
def Obligations.AndRegisterMode : Prop :=
  (∀ w : Word, w &&& 0xF020 = 0x5000 → decode w =
    .andReg (Reg.ofBits (w.extractLsb' 9 3)) (Reg.ofBits (w.extractLsb' 6 3)) (Reg.ofBits (w.extractLsb' 0 3))) ∧
  ∀ (dr sr1 sr2 : Reg) (s : State), ∃ t, exec (.andReg dr sr1 sr2) s = .next t ∧
    t.reg dr = s.reg sr1 &&& s.reg sr2 ∧ t.cond = condOf (s.reg sr1 &&& s.reg sr2) ∧ OnlyResult dr s t

/-- AND in immediate mode (R95); with a nonnegative immediate the result is in 0..15 and never N, which is 0b100 by the spec's
decision D3 (log 2). -/
def Obligations.AndImmediateMode : Prop :=
  (∀ w : Word, w &&& 0xF020 = 0x5020 → decode w =
    .andImm (Reg.ofBits (w.extractLsb' 9 3)) (Reg.ofBits (w.extractLsb' 6 3)) (w.extractLsb' 0 5)) ∧
  ∀ (dr sr1 : Reg) (imm5 : BitVec 5) (s : State), ∃ t, exec (.andImm dr sr1 imm5) s = .next t ∧
    t.reg dr = s.reg sr1 &&& sext imm5 ∧ t.cond = condOf (s.reg sr1 &&& sext imm5) ∧ OnlyResult dr s t ∧
    (imm5.toNat < 16 → (t.reg dr).toNat < 16 ∧ t.cond ≠ 0b100)

/-- R96: NOT. -/
def Obligations.NotComplements : Prop :=
  (∀ w : Word, w &&& 0xF000 = 0x9000 → decode w =
    .not (Reg.ofBits (w.extractLsb' 9 3)) (Reg.ofBits (w.extractLsb' 6 3))) ∧
  ∀ (dr sr : Reg) (s : State), ∃ t, exec (.not dr sr) s = .next t ∧
    t.reg dr = ~~~(s.reg sr) ∧ t.cond = condOf (~~~(s.reg sr)) ∧ OnlyResult dr s t

/-! ### Control transfer -/

/-- BR (R99; the positions of n, z, p are the spec's decision D3, log 2): PC-relative if the mask meets COND, else the next
instruction; nothing else changes. -/
def Obligations.BranchOnMask : Prop :=
  (∀ w : Word, w &&& 0xF000 = 0x0000 → decode w = .br (w.extractLsb' 9 3) (w.extractLsb' 0 9)) ∧
  ∀ (mask : BitVec 3) (off9 : BitVec 9) (s : State), ∃ t, exec (.br mask off9) s = .next t ∧
    t.pc = (if mask &&& s.cond ≠ 0 then s.pc + sext off9 else s.pc) ∧ OnlyPc [] s t

/-- R100: JMP. -/
def Obligations.JumpToRegister : Prop :=
  (∀ w : Word, w &&& 0xF000 = 0xC000 → decode w = .jmp (Reg.ofBits (w.extractLsb' 6 3))) ∧
  ∀ (baseR : Reg) (s : State), ∃ t, exec (.jmp baseR) s = .next t ∧ t.pc = s.reg baseR ∧ OnlyPc [] s t

/-- R101: JSR. -/
def Obligations.CallPcRelative : Prop :=
  (∀ w : Word, w &&& 0xF800 = 0x4800 → decode w = .jsr (w.extractLsb' 0 11)) ∧
  ∀ (off11 : BitVec 11) (s : State), ∃ t, exec (.jsr off11) s = .next t ∧
    t.reg .r7 = s.pc ∧ t.pc = s.pc + sext off11 ∧ OnlyPc [.r7] s t

/-- JSRR (R102, `JSRR_ORDER`, the spec's decision D19, log 20): under `LinkFirst` the base is read after R7 is written, under
`BaseFirst` before. -/
def Obligations.CallRegister : Prop :=
  (∀ w : Word, w &&& 0xF800 = 0x4000 → decode w = .jsrr (Reg.ofBits (w.extractLsb' 6 3))) ∧
  ∀ (baseR : Reg) (s : State), ∃ t, exec (.jsrr baseR) s = .next t ∧
    t.reg .r7 = s.pc ∧ t.pc = (if s.params.jsrrOrder = .linkFirst ∧ baseR = .r7 then s.pc else s.reg baseR) ∧
    OnlyPc [.r7] s t

/-! ### Loads and stores -/

/-- R106: LD. The value is what `MemRead` returns at the PC-relative address. -/
def Obligations.LoadPcRelative : Prop :=
  (∀ w : Word, w &&& 0xF000 = 0x2000 → decode w = .ld (Reg.ofBits (w.extractLsb' 9 3)) (w.extractLsb' 0 9)) ∧
  ∀ (dr : Reg) (off9 : BitVec 9) (s : State), ∃ t, exec (.ld dr off9) s = .next t ∧
    t.reg dr = (memRead s (s.pc + sext off9)).1 ∧ t.cond = condOf (t.reg dr) ∧
    t.mem = (memRead s (s.pc + sext off9)).2.mem ∧ t.keyboard = (memRead s (s.pc + sext off9)).2.keyboard ∧
    OnlyLoad dr s t ∧ (s.pc + sext off9 ≠ kbsr → OnlyResult dr s t)

/-- R107: LDI. The pointer is read first, the data after it, each with `MemRead`; away from 0xFE00 the value is
`Memory[Memory[PC+offset]]`. -/
def Obligations.LoadIndirect : Prop :=
  (∀ w : Word, w &&& 0xF000 = 0xA000 → decode w = .ldi (Reg.ofBits (w.extractLsb' 9 3)) (w.extractLsb' 0 9)) ∧
  ∀ (dr : Reg) (off9 : BitVec 9) (s : State), ∃ p s1 v s2 t,
    memRead s (s.pc + sext off9) = (p, s1) ∧ memRead s1 p = (v, s2) ∧ exec (.ldi dr off9) s = .next t ∧
    t.reg dr = v ∧ t.cond = condOf v ∧ t.mem = s2.mem ∧ t.keyboard = s2.keyboard ∧ OnlyLoad dr s t ∧
    (s.pc + sext off9 ≠ kbsr → s.cell (s.pc + sext off9) ≠ kbsr →
      v = s.cell (s.cell (s.pc + sext off9)) ∧ OnlyResult dr s t)

/-- R108: LDR. The address uses the base register's old value. -/
def Obligations.LoadBaseOffset : Prop :=
  (∀ w : Word, w &&& 0xF000 = 0x6000 → decode w =
    .ldr (Reg.ofBits (w.extractLsb' 9 3)) (Reg.ofBits (w.extractLsb' 6 3)) (w.extractLsb' 0 6)) ∧
  ∀ (dr baseR : Reg) (off6 : BitVec 6) (s : State), ∃ t, exec (.ldr dr baseR off6) s = .next t ∧
    t.reg dr = (memRead s (s.reg baseR + sext off6)).1 ∧ t.cond = condOf (t.reg dr) ∧
    t.mem = (memRead s (s.reg baseR + sext off6)).2.mem ∧
    t.keyboard = (memRead s (s.reg baseR + sext off6)).2.keyboard ∧
    OnlyLoad dr s t ∧ (s.reg baseR + sext off6 ≠ kbsr → OnlyResult dr s t)

/-- R109: LEA. The address itself, with the flags; no memory access. -/
def Obligations.LoadEffectiveAddress : Prop :=
  (∀ w : Word, w &&& 0xF000 = 0xE000 → decode w = .lea (Reg.ofBits (w.extractLsb' 9 3)) (w.extractLsb' 0 9)) ∧
  ∀ (dr : Reg) (off9 : BitVec 9) (s : State), ∃ t, exec (.lea dr off9) s = .next t ∧
    t.reg dr = s.pc + sext off9 ∧ t.cond = condOf (s.pc + sext off9) ∧ OnlyResult dr s t

/-- R110: ST. -/
def Obligations.StorePcRelative : Prop :=
  (∀ w : Word, w &&& 0xF000 = 0x3000 → decode w = .st (Reg.ofBits (w.extractLsb' 9 3)) (w.extractLsb' 0 9)) ∧
  ∀ (sr : Reg) (off9 : BitVec 9) (s : State), ∃ t, exec (.st sr off9) s = .next t ∧
    t.cell (s.pc + sext off9) = s.reg sr ∧ OnlyStore (s.pc + sext off9) s t

/-- R111: STI. The pointer is what `MemRead` returns at the PC-relative address; all but the cell it names, and what that
read itself does when its address is 0xFE00, is unchanged. -/
def Obligations.StoreIndirect : Prop :=
  (∀ w : Word, w &&& 0xF000 = 0xB000 → decode w = .sti (Reg.ofBits (w.extractLsb' 9 3)) (w.extractLsb' 0 9)) ∧
  ∀ (sr : Reg) (off9 : BitVec 9) (s : State), ∃ p s1 t,
    memRead s (s.pc + sext off9) = (p, s1) ∧ exec (.sti sr off9) s = .next t ∧
    t.cell p = s.reg sr ∧ OnlyStore p s1 t ∧ RegsKept [] s t ∧ MemKept [p, kbsr, kbdr] s t ∧
    (s.pc + sext off9 ≠ kbsr → p = s.cell (s.pc + sext off9) ∧ OnlyStore p s t)

/-- R112: STR. -/
def Obligations.StoreBaseOffset : Prop :=
  (∀ w : Word, w &&& 0xF000 = 0x7000 → decode w =
    .str (Reg.ofBits (w.extractLsb' 9 3)) (Reg.ofBits (w.extractLsb' 6 3)) (w.extractLsb' 0 6)) ∧
  ∀ (sr baseR : Reg) (off6 : BitVec 6) (s : State), ∃ t, exec (.str sr baseR off6) s = .next t ∧
    t.cell (s.reg baseR + sext off6) = s.reg sr ∧ OnlyStore (s.reg baseR + sext off6) s t

/-! ### Memory and the keyboard cells -/

/-- R50: a read of any address other than 0xFE00 returns the cell's current value and changes nothing. -/
def Obligations.PlainReadChangesNothing : Prop :=
  ∀ (s : State) (a : Word), a ≠ kbsr → memRead s a = (s.cell a, s)

/-- R48: a write stores the value at its address and does nothing else, whatever the address. -/
def Obligations.WriteStoresAndNothingElse : Prop :=
  ∀ (s : State) (a v : Word), (memWrite s a v).cell a = v ∧
    OnlyStore a s (memWrite s a v) ∧ (a ≠ kbsr → (memRead (memWrite s a v) a).1 = v)

/-- The read of 0xFE00 (20_memory.md R53; the spec's decisions D8, D9, D12, log 8): ready, bit 15 set by `KBSR_SET_MODE`, the
character in 0xFE02 and consumed; not ready, the status cell cleared. The value returned is that of the cell afterwards. -/
def Obligations.StatusReadPolls : Prop :=
  kbsr = 0xFE00 ∧ kbdr = 0xFE02 ∧ ∀ s : State,
    (∀ k c, s.keyboard.poll = (k, some c) →
      (memRead s kbsr).1 = (if s.params.kbsrSetMode = .or then s.cell kbsr ||| 0x8000 else 0x8000) ∧
      (memRead s kbsr).2.cell kbdr = c.setWidth 16 ∧ (memRead s kbsr).2.keyboard = k) ∧
    (∀ k, s.keyboard.poll = (k, none) →
      (memRead s kbsr).1 = 0 ∧ (memRead s kbsr).2.cell kbdr = s.cell kbdr ∧
      (memRead s kbsr).2.keyboard = k) ∧
    (memRead s kbsr).2.cell kbsr = (memRead s kbsr).1 ∧
    RegsKept [] s (memRead s kbsr).2 ∧ (memRead s kbsr).2.pc = s.pc ∧ (memRead s kbsr).2.cond = s.cond ∧
    MemKept [kbsr, kbdr] s (memRead s kbsr).2 ∧ (memRead s kbsr).2.output = s.output ∧
    ControlKept s (memRead s kbsr).2

/-- The console answers of the model (log 11, 12; R9, D9): a poll that finds a character takes the very one a blocking read
would take, and a poll that finds none takes none: a blocking read after it gets what one before it would have got. -/
def Obligations.PollAndBlockingReadAgree : Prop :=
  ∀ k k' : Keyboard,
    (∀ c, k.poll = (k', some c) → k.read = some (c, k')) ∧
    (k.poll = (k', none) → k'.read = k.read)

/-- R54: a load of 0xFE00 gives N with bit 15 set exactly when a character was ready, and Z with 0x0000 exactly when none
was (log 2, 8). -/
def Obligations.StatusSignTellsReadiness : Prop :=
  ∀ s : State,
    ((memRead s kbsr).1.getLsbD 15 = true ↔ s.keyboard.poll.2.isSome = true) ∧
    ((memRead s kbsr).1 = 0 ↔ s.keyboard.poll.2 = none) ∧
    (condOf (memRead s kbsr).1 = 0b100 ↔ s.keyboard.poll.2.isSome = true) ∧
    (condOf (memRead s kbsr).1 = 0b010 ↔ s.keyboard.poll.2 = none)

/-- R60: a store to the address of the very next instruction is what the next step fetches and executes, whatever it holds. -/
def Obligations.StoreIsSeenByTheNextFetch : Prop :=
  ∀ (s : State) (sr : Reg), s.run = .running → s.pc ≠ kbsr → s.pc + 1 ≠ kbsr →
    decode (s.cell s.pc) = .st sr 0 →
    ∃ t, step s = .next t ∧ t.pc = s.pc + 1 ∧ t.run = .running ∧
      step t = exec (decode (s.reg sr)) { t with pc := s.pc + 2 }

/-! ### Rules of the whole machine -/

/-- Every step keeps the canonical form of memory (log 19). -/
def Obligations.StepKeepsMemoryCanonical : Prop :=
  ∀ s t : State, s.mem.wf = true → step s = .next t → t.mem.wf = true

/-- R28: a flag-updating instruction leaves exactly one flag set, whatever COND held before; and no step leaves the states in
which exactly one is set (bit values by the spec's decision D3, log 2). -/
def Obligations.StepKeepsExactlyOneFlag : Prop :=
  (∀ s t : State, OneFlag s.cond → step s = .next t → OneFlag t.cond) ∧
  ∀ (i : Instr) (s t : State), exec i s = .next t →
    i.form ∈ [Form.addReg, .addImm, .andReg, .andImm, .not, .ld, .ldi, .ldr, .lea] → OneFlag t.cond

/-- R26: COND changes only by a flag-updating instruction, with the value it writes to DR; every other instruction leaves it as
it was; and no instruction brings COND into a register. -/
def Obligations.CondWrittenOnlyByFlagUpdaters : Prop :=
  ∀ (i : Instr) (s t : State), exec i s = .next t →
    (match i with
      | .addReg dr _ _ | .addImm dr _ _ | .andReg dr _ _ | .andImm dr _ _ | .not dr _ | .ld dr _ | .ldi dr _
      | .ldr dr _ _ | .lea dr _ => t.cond = condOf (t.reg dr)
      | .br _ _ | .jmp _ | .jsr _ | .jsrr _ | .st _ _ | .sti _ _ | .str _ _ _ | .trap _ | .reserved8 | .reserved13 =>
        t.cond = s.cond) ∧
    ∀ (c : BitVec 3) (u : State), exec i (s.withCond c) = .next u → u.gpr = t.gpr

/-- R27: COND is read only by BR: any other instruction does the same to everything but COND whatever COND holds. -/
def Obligations.CondReadOnlyByBranch : Prop :=
  ∀ (i : Instr) (s t : State) (c : BitVec 3), i.form ≠ .br → exec i s = .next t →
    ∃ d, exec i (s.withCond c) = .next (t.withCond d)

/-- Where each instruction leaves PC (R22), `s.pc` being the incremented value, and that the reserved opcodes fault besides. JSRR
with base R7 goes by `JSRR_ORDER` (R102), the spec's decision D19 (log 20). -/
def Obligations.PcAfterEachInstruction : Prop :=
  ∀ (i : Instr) (s t : State), exec i s = .next t →
    (t.pc = match i with
      | .br mask off9 => if mask &&& s.cond ≠ 0 then s.pc + sext off9 else s.pc
      | .jmp baseR => s.reg baseR
      | .jsr off11 => s.pc + sext off11
      | .jsrr baseR => if s.params.jsrrOrder = .linkFirst ∧ baseR = .r7 then s.pc else s.reg baseR
      | .addReg _ _ _ | .addImm _ _ _ | .andReg _ _ _ | .andImm _ _ _ | .not _ _ | .ld _ _ | .ldi _ _ | .ldr _ _ _
      | .lea _ _ | .st _ _ | .sti _ _ | .str _ _ _ | .trap _ | .reserved8 | .reserved13 => s.pc) ∧
    (i = .reserved8 ∨ i = .reserved13 → ∃ record, t.run = .faulted record)

/-- R18 (TRAP by `TRAP_LINKS_R7`, the spec's decisions D13, D26, log 21): no instruction writes a general register but the one
the table gives it. -/
def Obligations.RegistersWritten : Prop :=
  ∀ (i : Instr) (s t : State), exec i s = .next t → RegsKept
    (match i with
      | .addReg dr _ _ | .addImm dr _ _ | .andReg dr _ _ | .andImm dr _ _ | .not dr _ | .ld dr _ | .ldi dr _
      | .ldr dr _ _ | .lea dr _ => [dr]
      | .jsr _ | .jsrr _ => [.r7]
      | .trap v => (if v = 0x20 ∨ v = 0x23 then [.r0] else []) ++ (if s.params.trapLinksR7 then [.r7] else [])
      | .br _ _ | .jmp _ | .st _ _ | .sti _ _ | .str _ _ _ | .reserved8 | .reserved13 => []) s t

/-- R41: no instruction writes a memory cell but the one it stores to and, by a read of 0xFE00, the two keyboard cells; those
that make no access but the fetch write none. -/
def Obligations.MemoryWritten : Prop :=
  ∀ (i : Instr) (s t : State), exec i s = .next t → MemKept
    (match i with
      | .st _ off9 => [s.pc + sext off9]
      | .str _ baseR off6 => [s.reg baseR + sext off6]
      | .sti _ off9 => [(memRead s (s.pc + sext off9)).1, kbsr, kbdr]
      | .ld _ _ | .ldi _ _ | .ldr _ _ _ => [kbsr, kbdr]
      | .trap v => if v = 0x22 ∨ v = 0x24 then [kbsr, kbdr] else []
      | .addReg _ _ _ | .addImm _ _ _ | .andReg _ _ _ | .andImm _ _ _ | .not _ _ | .lea _ _ | .br _ _ | .jmp _
      | .jsr _ | .jsrr _ | .reserved8 | .reserved13 => []) s t

/-- R9, R141: a step only appends to the output stream, and only a TRAP appends anything; and no step changes the parameters
(log 7). -/
def Obligations.OutputOnlyGrows : Prop :=
  ∀ s t : State, step s = .next t →
    s.output <+: t.output ∧ ((decode (memRead s s.pc).1).form ≠ .trap → t.output = s.output) ∧ t.params = s.params

/-! ### TRAP and faults -/

/-- GETC (R115; the spec's decisions D12, D13, log 21): the next character, zero-extended, in R0; no output, COND unchanged. -/
def Obligations.GetcReadsOneCharacter : Prop :=
  ∀ (s : State) (c : Byte) (k : Keyboard), s.keyboard.read = some (c, k) →
    ∃ t, exec (.trap 0x20) s = .next t ∧ t.reg .r0 = c.setWidth 16 ∧ t.keyboard = k ∧ t.output = s.output ∧
      t.run = s.run ∧ MemKept [] s t ∧ OnlyService [.r0] s t

/-- GETC and IN with no character to come (R123, the spec's decision D25; log 13): no successor, the core waits. -/
def Obligations.BlockingReadsWaitForTheHost : Prop :=
  ∀ s : State, s.keyboard.read = none →
    exec (.trap 0x20) s = .fault .awaitingHost ∧ exec (.trap 0x23) s = .fault .awaitingHost

/-- OUT writes the character whose code is the low byte of R0 (R116). That TRAP writes R7 under `TRAP_LINKS_R7` and no service
another register is the spec's decisions D13 and D26 (log 21). -/
def Obligations.OutWritesTheLowByte : Prop :=
  ∀ s : State, ∃ t, exec (.trap 0x21) s = .next t ∧
    t.output = s.output ++ [.written (((s.reg .r0).extractLsb' 0 8).setWidth 16)] ∧
    t.keyboard = s.keyboard ∧ t.run = s.run ∧ MemKept [] s t ∧ OnlyService [] s t

/-- PUTS (R117; whole words by the spec's decision D15, log 15) on a string of `n` nonzero cells that does not meet 0xFE00:
one character a cell, the terminator read and not written. -/
def Obligations.PutsWritesTheString : Prop :=
  ∀ (s : State) (n : Nat),
    (∀ k < n, s.reg .r0 + BitVec.ofNat 16 k ≠ kbsr ∧ s.cell (s.reg .r0 + BitVec.ofNat 16 k) ≠ 0) →
    s.reg .r0 + BitVec.ofNat 16 n ≠ kbsr → s.cell (s.reg .r0 + BitVec.ofNat 16 n) = 0 →
    ∃ t, exec (.trap 0x22) s = .next t ∧
      t.output = s.output ++ (List.range n).map (fun k => .written (s.cell (s.reg .r0 + BitVec.ofNat 16 k))) ∧
      t.keyboard = s.keyboard ∧ t.run = s.run ∧ MemKept [] s t ∧ OnlyService [] s t

/-- PUTSP (R119; the low byte always, the spec's decision D16, log 15) on a string of `n` nonzero cells that does not meet
0xFE00: of each cell the low byte, then the high byte if it is not zero. -/
def Obligations.PutspWritesThePackedString : Prop :=
  ∀ (s : State) (n : Nat),
    (∀ k < n, s.reg .r0 + BitVec.ofNat 16 k ≠ kbsr ∧ s.cell (s.reg .r0 + BitVec.ofNat 16 k) ≠ 0) →
    s.reg .r0 + BitVec.ofNat 16 n ≠ kbsr → s.cell (s.reg .r0 + BitVec.ofNat 16 n) = 0 →
    ∃ t, exec (.trap 0x24) s = .next t ∧
      t.output = s.output ++ (List.range n).flatMap (fun k =>
        let v := s.cell (s.reg .r0 + BitVec.ofNat 16 k)
        if v.extractLsb' 8 8 = 0 then [.written ((v.extractLsb' 0 8).setWidth 16)]
        else [.written ((v.extractLsb' 0 8).setWidth 16), .written ((v.extractLsb' 8 8).setWidth 16)]) ∧
      t.keyboard = s.keyboard ∧ t.run = s.run ∧ MemKept [] s t ∧ OnlyService [] s t

/-- PUTS and PUTSP that start on 0xFE00 with no character ready (R117, R51): the read polls, returns 0 and ends the scan with
nothing written. -/
def Obligations.ScanOfUnreadyStatusCellEnds : Prop :=
  ∀ (s : State) (k : Keyboard) (v : BitVec 8), (v = 0x22 ∨ v = 0x24) → s.reg .r0 = kbsr →
    s.keyboard.poll = (k, none) →
    ∃ t, exec (.trap v) s = .next t ∧ t.output = s.output ∧ t.cell kbsr = 0 ∧ t.keyboard = k ∧ t.run = s.run ∧
      MemKept [kbsr] s t ∧ OnlyService [] s t

/-- PUTS and PUTSP stop as a hang only when the scan never ends, however long it runs (R117, I9; log 14). -/
def Obligations.ScanHangsOnlyIfEndless : Prop :=
  ∀ s : State,
    (exec (.trap 0x22) s = .fault .scanHang ↔ ∀ fuel, scan putsChars fuel (s.reg .r0) (trapLink s) = none) ∧
    (exec (.trap 0x24) s = .fault .scanHang ↔ ∀ fuel, scan putspChars fuel (s.reg .r0) (trapLink s) = none)

/-- IN (R118; the spec's decisions D12, D17, log 10, 25): the prompt, then the next character, echoed and in R0. -/
def Obligations.InPromptsAndEchoes : Prop :=
  ∀ (s : State) (c : Byte) (k : Keyboard), s.keyboard.read = some (c, k) →
    ∃ t, exec (.trap 0x23) s = .next t ∧ t.reg .r0 = c.setWidth 16 ∧ t.keyboard = k ∧
      t.output = s.output ++ s.params.inPrompt.map .written ++ [.echoed c] ∧
      t.run = s.run ∧ MemKept [] s t ∧ OnlyService [.r0] s t

/-- HALT (R120; the notice is the OPEN parameter of the spec's decision D17, log 10): Halted after the notice, and no step
follows. -/
def Obligations.HaltStopsTheCore : Prop :=
  ∀ s : State, ∃ t, exec (.trap 0x25) s = .next t ∧ t.run = .halted ∧
    t.output = s.output ++ s.params.haltNotice.map .written ∧ t.keyboard = s.keyboard ∧ MemKept [] s t ∧
    OnlyService [] s t ∧ step t = .fault .halted

/-- Every other vector (R121, R125; `UNKNOWN_TRAP`, the spec's decisions D14, D18, log 17, 22): nothing but PC and the link under
`Noop`; under `Fault` the run state and the record with the vector and the fetch address, one below the incremented PC. -/
def Obligations.UnknownVector : Prop :=
  ∀ (s : State) (v : BitVec 8), (v.toNat < 0x20 ∨ 0x25 < v.toNat) →
    ∃ t, exec (.trap v) s = .next t ∧
      t.run = (if s.params.unknownTrap = .noop then s.run else .faulted (.unknownTrap v (s.pc - 1))) ∧
      ConsoleKept s t ∧ MemKept [] s t ∧ OnlyService [] s t

/-- InvalidOpcode (R124, R129; the spec's decisions D18, D24, log 17): the reserved instructions write the run state and the
record and nothing else; so a running core that fetches a word whose bits 15:12 are 8 or 13 writes besides what that fetch does
only PC, the run state and the record, which holds the opcode and the address of the word. -/
def Obligations.InvalidOpcodeFaults : Prop :=
  (∀ s : State, exec .reserved8 s = .next { s with run := .faulted (.invalidOpcode 8 (s.pc - 1)) } ∧
    exec .reserved13 s = .next { s with run := .faulted (.invalidOpcode 13 (s.pc - 1)) }) ∧
  ∀ (s : State) (w : Word) (s1 : State), s.run = .running → memRead s s.pc = (w, s1) →
    (w.extractLsb' 12 4 = 8 ∨ w.extractLsb' 12 4 = 13) →
    step s = .next { s1 with pc := s.pc + 1, run := .faulted (.invalidOpcode (w.extractLsb' 12 4) s.pc) }
end

