-- ==== Sys2Proof/Laws/Decode.lean ====
section
/-! SUPPORT. Small laws of the fields, the registers they name, and well-formedness. -/

namespace Sys2Proof

/-- A register is named by its own bits. -/
@[simp] theorem Reg.ofBits_bits (r : Reg) : Reg.ofBits r.bits = r := by cases r <;> rfl

/-- Every 3-bit value names a register (R70), and its bits are that value. -/
@[simp] theorem Reg.bits_ofBits (b : BitVec 3) : (Reg.ofBits b).bits = b := by revert b; decide

theorem Reg.operand_fits (r : Reg) : r.operand.fits = true := by cases r <;> rfl

/-- A field of a bit vector fits its width. -/
theorem field_fits {n : Nat} (v : BitVec n) : Operand.fits ⟨v.toNat, n⟩ = true := by
  simp [Operand.fits, v.isLt]

/-- Bit `k` of a field of the word. -/
@[simp] theorem field_getLsbD (w : Word) (lo len k : Nat) :
    (field w lo len).getLsbD k = (decide (k < len) && w.getLsbD (lo + k)) := by
  simp [field, BitVec.getLsbD_extractLsb']

/-- Bit `k` of a field put at its place. -/
theorem place_getLsbD {len : Nat} (v : BitVec len) (lo k : Nat) :
    (place v lo).getLsbD k = (decide (k < 16) && decide (lo ≤ k) && v.getLsbD (k - lo)) := by
  by_cases h : k < 16
  · have below : k - lo < 16 := by omega
    by_cases g : lo ≤ k <;>
      simp [place, BitVec.getLsbD_shiftLeft, BitVec.getLsbD_setWidth, h, g, below, -BitVec.getLsbD_eq_getElem]
  · simp [h, BitVec.getLsbD_of_ge _ _ (Nat.le_of_not_lt h)]

/-- The types of the operands give every instruction well-formed. -/
theorem Laws.wellFormed_all (i : Instr) : i.wellFormed = true := by
  cases i <;> simp [Instr.wellFormed, Instr.operands, Reg.operand_fits, field_fits]

end Sys2Proof
end

