-- ==== Sys2Proof/Laws/Keyboard.lean ====
section
/-! SUPPORT. The host's side of the console: what settling the next characters does, and everything a poll and a blocking
read can do. -/

namespace Sys2Proof

/-- With a character pending there is nothing to settle. -/
@[simp] theorem Keyboard.refill_cons (e : KeyEvent) (rest : List KeyEvent) (supply : Supply) :
    Keyboard.refill ⟨e :: rest, supply⟩ = ⟨e :: rest, supply⟩ := rfl

@[simp] theorem Keyboard.refill_silent : Keyboard.refill ⟨[], .silent⟩ = ⟨[], .silent⟩ := rfl

/-- Settling leaves nothing pending only if the host supplies nothing more. -/
theorem Keyboard.refill_nil {k : Keyboard} (h : k.refill.pending = []) : k.refill = ⟨[], .silent⟩ := by
  obtain ⟨_ | ⟨e, rest⟩, _ | n | n⟩ := k
  · rfl
  · cases h
  · revert h
    show ((Config.hostBurst n).settle n).pending = [] → (Config.hostBurst n).settle n = _
    cases Config.hostBurst n <;> simp [Burst.settle]
  all_goals cases h

/-- What is settled stays settled. -/
@[simp] theorem Keyboard.refill_refill (k : Keyboard) : k.refill.refill = k.refill := by
  rcases h : k.refill with ⟨_ | ⟨e, rest⟩, supply⟩
  · have none := refill_nil (k := k) (by rw [h])
    rw [h] at none
    rw [none, refill_silent]
  · rfl

/-- Everything a poll can do: take the next character, count its delay down, or find that the host supplies nothing more. -/
theorem Keyboard.poll_cases (k : Keyboard) :
    (∃ c rest supply, k.refill = ⟨⟨0, c⟩ :: rest, supply⟩ ∧ k.poll = (⟨rest, supply⟩, some c)) ∨
    (∃ d c rest supply, k.refill = ⟨⟨d + 1, c⟩ :: rest, supply⟩ ∧ k.poll = (⟨⟨d, c⟩ :: rest, supply⟩, none)) ∨
    (k.refill = ⟨[], .silent⟩ ∧ k.poll = (⟨[], .silent⟩, none)) := by
  unfold poll
  rcases h : k.refill with ⟨_ | ⟨⟨_ | d, c⟩, rest⟩, supply⟩
  · rw [refill_nil (by rw [h])] at h
    cases h
    exact .inr (.inr ⟨rfl, rfl⟩)
  · exact .inl ⟨c, rest, supply, rfl, rfl⟩
  · exact .inr (.inl ⟨d, c, rest, supply, rfl, rfl⟩)

/-- Everything a blocking read can do: take the next character, or find that the host supplies nothing more. -/
theorem Keyboard.read_cases (k : Keyboard) :
    (∃ d c rest supply, k.refill = ⟨⟨d, c⟩ :: rest, supply⟩ ∧ k.read = some (c, ⟨rest, supply⟩)) ∨
    (k.refill = ⟨[], .silent⟩ ∧ k.read = none) := by
  unfold read
  rcases h : k.refill with ⟨_ | ⟨⟨d, c⟩, rest⟩, supply⟩
  · rw [refill_nil (by rw [h])] at h
    cases h
    exact .inr ⟨rfl, rfl⟩
  · exact .inl ⟨d, c, rest, supply, rfl, rfl⟩

theorem nonNul_ne_zero (c : Byte) : nonNul c ≠ 0 := by
  unfold nonNul
  split
  · decide
  · assumption

/-- An endless host answers every poll with a character, none NUL. -/
theorem Keyboard.poll_endless (n : Nat) :
    Keyboard.poll ⟨[], .endless n⟩ = (⟨[], .endless (n + 1)⟩, some (nonNul (Config.hostTyped n))) := rfl

end Sys2Proof
end

