-- ==== Sys2Proof/Laws/State.lean ====
section
/-! SUPPORT. What each update of the state does to each field, one lemma each, true by unfolding; and reading a register
after an update. -/

namespace Sys2Proof.Machine

/-- Reading a register after a write: the value written, or what the register held. -/
@[simp] theorem Gprs.get_set (g : Gprs) (r q : Reg) (v : Word) :
    (g.set r v).get q = if q = r then v else g.get q := by
  cases r <;> cases q <;> rfl

variable (s : State)

@[simp] theorem setReg_gpr (r : Reg) (v : Word) : (s.setReg r v).gpr = s.gpr.set r v := rfl
@[simp] theorem setReg_pc (r : Reg) (v : Word) : (s.setReg r v).pc = s.pc := rfl
@[simp] theorem setReg_cond (r : Reg) (v : Word) : (s.setReg r v).cond = s.cond := rfl
@[simp] theorem setReg_run (r : Reg) (v : Word) : (s.setReg r v).run = s.run := rfl
@[simp] theorem setReg_mem (r : Reg) (v : Word) : (s.setReg r v).mem = s.mem := rfl
@[simp] theorem setReg_keyboard (r : Reg) (v : Word) : (s.setReg r v).keyboard = s.keyboard := rfl
@[simp] theorem setReg_output (r : Reg) (v : Word) : (s.setReg r v).output = s.output := rfl
@[simp] theorem setReg_params (r : Reg) (v : Word) : (s.setReg r v).params = s.params := rfl

@[simp] theorem setPc_gpr (t : Word) : (s.setPc t).gpr = s.gpr := rfl
@[simp] theorem setPc_pc (t : Word) : (s.setPc t).pc = t := rfl
@[simp] theorem setPc_cond (t : Word) : (s.setPc t).cond = s.cond := rfl
@[simp] theorem setPc_run (t : Word) : (s.setPc t).run = s.run := rfl
@[simp] theorem setPc_mem (t : Word) : (s.setPc t).mem = s.mem := rfl
@[simp] theorem setPc_keyboard (t : Word) : (s.setPc t).keyboard = s.keyboard := rfl
@[simp] theorem setPc_output (t : Word) : (s.setPc t).output = s.output := rfl
@[simp] theorem setPc_params (t : Word) : (s.setPc t).params = s.params := rfl

@[simp] theorem memWrite_gpr (a v : Word) : (memWrite s a v).gpr = s.gpr := rfl
@[simp] theorem memWrite_pc (a v : Word) : (memWrite s a v).pc = s.pc := rfl
@[simp] theorem memWrite_cond (a v : Word) : (memWrite s a v).cond = s.cond := rfl
@[simp] theorem memWrite_run (a v : Word) : (memWrite s a v).run = s.run := rfl
@[simp] theorem memWrite_mem (a v : Word) : (memWrite s a v).mem = s.mem.poke a.toNat v := rfl
@[simp] theorem memWrite_keyboard (a v : Word) : (memWrite s a v).keyboard = s.keyboard := rfl
@[simp] theorem memWrite_output (a v : Word) : (memWrite s a v).output = s.output := rfl
@[simp] theorem memWrite_params (a v : Word) : (memWrite s a v).params = s.params := rfl

@[simp] theorem write_gpr (cs : List Word) : (s.write cs).gpr = s.gpr := rfl
@[simp] theorem write_pc (cs : List Word) : (s.write cs).pc = s.pc := rfl
@[simp] theorem write_cond (cs : List Word) : (s.write cs).cond = s.cond := rfl
@[simp] theorem write_run (cs : List Word) : (s.write cs).run = s.run := rfl
@[simp] theorem write_mem (cs : List Word) : (s.write cs).mem = s.mem := rfl
@[simp] theorem write_keyboard (cs : List Word) : (s.write cs).keyboard = s.keyboard := rfl
@[simp] theorem write_output (cs : List Word) : (s.write cs).output = s.output ++ cs.map OutEvent.written := rfl
@[simp] theorem write_params (cs : List Word) : (s.write cs).params = s.params := rfl

@[simp] theorem echo_gpr (c : Byte) : (s.echo c).gpr = s.gpr := rfl
@[simp] theorem echo_pc (c : Byte) : (s.echo c).pc = s.pc := rfl
@[simp] theorem echo_cond (c : Byte) : (s.echo c).cond = s.cond := rfl
@[simp] theorem echo_run (c : Byte) : (s.echo c).run = s.run := rfl
@[simp] theorem echo_mem (c : Byte) : (s.echo c).mem = s.mem := rfl
@[simp] theorem echo_keyboard (c : Byte) : (s.echo c).keyboard = s.keyboard := rfl
@[simp] theorem echo_output (c : Byte) : (s.echo c).output = s.output ++ [OutEvent.echoed c] := rfl
@[simp] theorem echo_params (c : Byte) : (s.echo c).params = s.params := rfl

@[simp] theorem setKeyboard_gpr (k : Keyboard) : (s.setKeyboard k).gpr = s.gpr := rfl
@[simp] theorem setKeyboard_pc (k : Keyboard) : (s.setKeyboard k).pc = s.pc := rfl
@[simp] theorem setKeyboard_cond (k : Keyboard) : (s.setKeyboard k).cond = s.cond := rfl
@[simp] theorem setKeyboard_run (k : Keyboard) : (s.setKeyboard k).run = s.run := rfl
@[simp] theorem setKeyboard_mem (k : Keyboard) : (s.setKeyboard k).mem = s.mem := rfl
@[simp] theorem setKeyboard_keyboard (k : Keyboard) : (s.setKeyboard k).keyboard = k := rfl
@[simp] theorem setKeyboard_output (k : Keyboard) : (s.setKeyboard k).output = s.output := rfl
@[simp] theorem setKeyboard_params (k : Keyboard) : (s.setKeyboard k).params = s.params := rfl

@[simp] theorem setcc_gpr (v : Word) : (setcc s v).gpr = s.gpr := rfl
@[simp] theorem setcc_pc (v : Word) : (setcc s v).pc = s.pc := rfl
@[simp] theorem setcc_cond (v : Word) : (setcc s v).cond = condOf v := rfl
@[simp] theorem setcc_run (v : Word) : (setcc s v).run = s.run := rfl
@[simp] theorem setcc_mem (v : Word) : (setcc s v).mem = s.mem := rfl
@[simp] theorem setcc_keyboard (v : Word) : (setcc s v).keyboard = s.keyboard := rfl
@[simp] theorem setcc_output (v : Word) : (setcc s v).output = s.output := rfl
@[simp] theorem setcc_params (v : Word) : (setcc s v).params = s.params := rfl

@[simp] theorem writeResult_gpr (r : Reg) (v : Word) : (writeResult s r v).gpr = s.gpr.set r v := rfl
@[simp] theorem writeResult_pc (r : Reg) (v : Word) : (writeResult s r v).pc = s.pc := rfl
@[simp] theorem writeResult_cond (r : Reg) (v : Word) : (writeResult s r v).cond = condOf v := rfl
@[simp] theorem writeResult_run (r : Reg) (v : Word) : (writeResult s r v).run = s.run := rfl
@[simp] theorem writeResult_mem (r : Reg) (v : Word) : (writeResult s r v).mem = s.mem := rfl
@[simp] theorem writeResult_keyboard (r : Reg) (v : Word) : (writeResult s r v).keyboard = s.keyboard := rfl
@[simp] theorem writeResult_output (r : Reg) (v : Word) : (writeResult s r v).output = s.output := rfl
@[simp] theorem writeResult_params (r : Reg) (v : Word) : (writeResult s r v).params = s.params := rfl

@[simp] theorem linkR7_gpr : (linkR7 s).gpr = s.gpr.set .r7 s.pc := rfl
@[simp] theorem linkR7_pc : (linkR7 s).pc = s.pc := rfl
@[simp] theorem linkR7_cond : (linkR7 s).cond = s.cond := rfl
@[simp] theorem linkR7_run : (linkR7 s).run = s.run := rfl
@[simp] theorem linkR7_mem : (linkR7 s).mem = s.mem := rfl
@[simp] theorem linkR7_keyboard : (linkR7 s).keyboard = s.keyboard := rfl
@[simp] theorem linkR7_output : (linkR7 s).output = s.output := rfl
@[simp] theorem linkR7_params : (linkR7 s).params = s.params := rfl

@[simp] theorem raiseFault_gpr (k : Word → FaultRecord) : (raiseFault s k).gpr = s.gpr := rfl
@[simp] theorem raiseFault_pc (k : Word → FaultRecord) : (raiseFault s k).pc = s.pc := rfl
@[simp] theorem raiseFault_cond (k : Word → FaultRecord) : (raiseFault s k).cond = s.cond := rfl
@[simp] theorem raiseFault_run (k : Word → FaultRecord) : (raiseFault s k).run = RunState.faulted (k s.fpc) := rfl
@[simp] theorem raiseFault_mem (k : Word → FaultRecord) : (raiseFault s k).mem = s.mem := rfl
@[simp] theorem raiseFault_keyboard (k : Word → FaultRecord) : (raiseFault s k).keyboard = s.keyboard := rfl
@[simp] theorem raiseFault_output (k : Word → FaultRecord) : (raiseFault s k).output = s.output := rfl
@[simp] theorem raiseFault_params (k : Word → FaultRecord) : (raiseFault s k).params = s.params := rfl

@[simp] theorem haltCore_gpr : (haltCore s).gpr = s.gpr := rfl
@[simp] theorem haltCore_pc : (haltCore s).pc = s.pc := rfl
@[simp] theorem haltCore_cond : (haltCore s).cond = s.cond := rfl
@[simp] theorem haltCore_run : (haltCore s).run = RunState.halted := rfl
@[simp] theorem haltCore_mem : (haltCore s).mem = s.mem := rfl
@[simp] theorem haltCore_keyboard : (haltCore s).keyboard = s.keyboard := rfl
@[simp] theorem haltCore_output : (haltCore s).output = s.output := rfl
@[simp] theorem haltCore_params : (haltCore s).params = s.params := rfl

/-- The general registers after each update, through the one read `State.reg`. -/
theorem reg_eq_get (r : Reg) : s.reg r = s.gpr.get r := rfl

@[simp] theorem setReg_reg (r : Reg) (v : Word) (q : Reg) : (s.setReg r v).reg q = if q = r then v else s.reg q := Gprs.get_set _ _ _ _
@[simp] theorem setPc_reg (t : Word) (q : Reg) : (s.setPc t).reg q = s.reg q := rfl
@[simp] theorem memWrite_reg (a v : Word) (q : Reg) : (memWrite s a v).reg q = s.reg q := rfl
@[simp] theorem write_reg (cs : List Word) (q : Reg) : (s.write cs).reg q = s.reg q := rfl
@[simp] theorem echo_reg (c : Byte) (q : Reg) : (s.echo c).reg q = s.reg q := rfl
@[simp] theorem setKeyboard_reg (k : Keyboard) (q : Reg) : (s.setKeyboard k).reg q = s.reg q := rfl
@[simp] theorem setcc_reg (v : Word) (q : Reg) : (setcc s v).reg q = s.reg q := rfl
@[simp] theorem writeResult_reg (r : Reg) (v : Word) (q : Reg) : (writeResult s r v).reg q = if q = r then v else s.reg q := Gprs.get_set _ _ _ _
@[simp] theorem linkR7_reg (q : Reg) : (linkR7 s).reg q = if q = .r7 then s.pc else s.reg q := Gprs.get_set _ _ _ _
@[simp] theorem raiseFault_reg (k : Word → FaultRecord) (q : Reg) : (raiseFault s k).reg q = s.reg q := rfl
@[simp] theorem haltCore_reg (q : Reg) : (haltCore s).reg q = s.reg q := rfl

@[simp] theorem setReg_cell (r : Reg) (v : Word) (b : Word) : (s.setReg r v).cell b = s.cell b := rfl
@[simp] theorem setPc_cell (t : Word) (b : Word) : (s.setPc t).cell b = s.cell b := rfl
@[simp] theorem write_cell (cs : List Word) (b : Word) : (s.write cs).cell b = s.cell b := rfl
@[simp] theorem echo_cell (c : Byte) (b : Word) : (s.echo c).cell b = s.cell b := rfl
@[simp] theorem setKeyboard_cell (k : Keyboard) (b : Word) : (s.setKeyboard k).cell b = s.cell b := rfl
@[simp] theorem setcc_cell (v : Word) (b : Word) : (setcc s v).cell b = s.cell b := rfl
@[simp] theorem writeResult_cell (r : Reg) (v : Word) (b : Word) : (writeResult s r v).cell b = s.cell b := rfl
@[simp] theorem linkR7_cell (b : Word) : (linkR7 s).cell b = s.cell b := rfl
@[simp] theorem raiseFault_cell (k : Word → FaultRecord) (b : Word) : (raiseFault s k).cell b = s.cell b := rfl
@[simp] theorem haltCore_cell (b : Word) : (haltCore s).cell b = s.cell b := rfl

end Sys2Proof.Machine
end

