-- ==== Sys2Proof/Laws/Memory.lean ====
section
/-! SUPPORT. The laws of memory: a read after a write, and that every operation keeps the canonical form. The read laws need
no canonical form: they hold of every list. -/

namespace Sys2Proof.Machine

@[simp] theorem peek_nil (a : Nat) : Memory.peek [] a = unlistedCell := rfl

theorem peek_cons (b : Nat) (w : Word) (m : Memory) (a : Nat) :
    Memory.peek ((b, w) :: m) a = if a = b then w else Memory.peek m a := rfl

theorem peek_clear (m : Memory) (a b : Nat) :
    (Memory.clear m a).peek b = if b = a then unlistedCell else Memory.peek m b := by
  induction m with
  | nil => simp [Memory.clear]
  | cons e m ih =>
    obtain ⟨c, w⟩ := e
    by_cases hac : a = c
    · subst hac
      by_cases hba : b = a
      · subst hba; simp [Memory.clear, ih]
      · simp [Memory.clear, Memory.peek, ih, hba]
    · by_cases hbc : b = c
      · subst hbc
        simp [Memory.clear, Memory.peek, hac, Ne.symm hac]
      · simp [Memory.clear, Memory.peek, ih, hac, hbc]

theorem peek_enter (m : Memory) (a b : Nat) (v : Word) (absent : Memory.peek m a = unlistedCell)
    (gone : Memory.clear m a = m) : (m.enter a v).peek b = if b = a then v else Memory.peek m b := by
  induction m with
  | nil => simp [Memory.enter, Memory.peek]
  | cons e m ih =>
    obtain ⟨c, w⟩ := e
    have hac : a ≠ c := by
      rintro rfl
      have : (Memory.clear ((a, w) :: m) a).length ≤ m.length := by
        have len : ∀ l : Memory, (Memory.clear l a).length ≤ l.length := by
          intro l
          induction l with
          | nil => simp [Memory.clear]
          | cons e l ih => obtain ⟨d, x⟩ := e; simp only [Memory.clear]; split <;> simp <;> omega
        simpa [Memory.clear] using len m
      rw [gone] at this
      simp at this
    have gone' : Memory.clear m a = m := by simpa [Memory.clear, hac] using gone
    have absent' : Memory.peek m a = unlistedCell := by simpa [Memory.peek, hac] using absent
    by_cases lt : a < c
    · simp [Memory.enter, Memory.peek, lt]
    · by_cases hbc : b = c
      · subst hbc
        simp [Memory.enter, Memory.peek, lt, Ne.symm hac]
      · simp [Memory.enter, Memory.peek, lt, hbc, ih absent' gone']

theorem clear_clear (m : Memory) (a : Nat) : Memory.clear (Memory.clear m a) a = Memory.clear m a := by
  induction m with
  | nil => rfl
  | cons e m ih =>
    obtain ⟨c, w⟩ := e
    by_cases hac : a = c <;> simp [Memory.clear, hac]
    · subst hac; exact ih
    · exact ih

/-- Reading any cell after a write: the value written, or what the cell held. -/
@[simp] theorem peek_poke (m : Memory) (a b : Nat) (v : Word) :
    (m.poke a v).peek b = if b = a then v else Memory.peek m b := by
  unfold Memory.poke
  split
  · rename_i h; rw [peek_clear, h]
  · rw [peek_enter _ _ _ _ (by rw [peek_clear]; simp) (clear_clear m a), peek_clear]
    split <;> rfl

theorem wfFrom_weaken {m : Memory} {l l' : Nat} (le : l' ≤ l) (h : Memory.wfFrom l m = true) :
    Memory.wfFrom l' m = true := by
  cases m with
  | nil => rfl
  | cons e m =>
    obtain ⟨c, w⟩ := e
    simp only [Memory.wfFrom, Bool.and_eq_true, decide_eq_true_eq] at h ⊢
    exact ⟨⟨⟨by omega, h.1.1.2⟩, h.1.2⟩, h.2⟩

theorem wfFrom_clear {m : Memory} {l : Nat} (a : Nat) (h : Memory.wfFrom l m = true) :
    Memory.wfFrom l (Memory.clear m a) = true := by
  induction m generalizing l with
  | nil => rfl
  | cons e m ih =>
    obtain ⟨c, w⟩ := e
    simp only [Memory.wfFrom, Bool.and_eq_true, decide_eq_true_eq] at h
    by_cases hac : a = c
    · simpa [Memory.clear, hac] using ih (wfFrom_weaken (by omega) h.2) |> (hac ▸ ·)
    · simp only [Memory.clear, if_neg hac, Memory.wfFrom, Bool.and_eq_true, decide_eq_true_eq]
      exact ⟨h.1, ih h.2⟩

theorem wfFrom_enter {m : Memory} {l a : Nat} {v : Word} (hv : v ≠ unlistedCell) (ha : a < 65536) (la : l ≤ a)
    (h : Memory.wfFrom l m = true) (gone : ∀ e ∈ m, e.1 ≠ a) : Memory.wfFrom l (m.enter a v) = true := by
  induction m generalizing l with
  | nil => simp [Memory.enter, Memory.wfFrom, hv, ha, la]
  | cons e m ih =>
    obtain ⟨c, w⟩ := e
    simp only [Memory.wfFrom, Bool.and_eq_true, decide_eq_true_eq] at h
    have hca : c ≠ a := gone (c, w) (by simp)
    by_cases lt : a < c
    · simp only [Memory.enter, if_pos lt, Memory.wfFrom, Bool.and_eq_true, decide_eq_true_eq]
      exact ⟨⟨⟨la, ha⟩, hv⟩, ⟨⟨by omega, h.1.1.2⟩, h.1.2⟩, h.2⟩
    · simp only [Memory.enter, if_neg lt, Memory.wfFrom, Bool.and_eq_true, decide_eq_true_eq]
      exact ⟨h.1, ih (by omega) h.2 fun e he => gone e (by simp [he])⟩

theorem not_mem_clear (m : Memory) (a : Nat) : ∀ e ∈ Memory.clear m a, e.1 ≠ a := by
  induction m with
  | nil => simp [Memory.clear]
  | cons e m ih =>
    obtain ⟨c, w⟩ := e
    by_cases hac : a = c
    · rw [Memory.clear, if_pos hac]; exact ih
    · simp only [Memory.clear, if_neg hac, List.mem_cons]
      rintro x (rfl | hx)
      · exact fun h => hac h.symm
      · exact ih x hx

@[simp] theorem wf_nil : Memory.wf [] = true := rfl

/-- A write keeps the canonical form. -/
theorem wf_poke {m : Memory} {a : Nat} (v : Word) (ha : a < 65536) (h : m.wf = true) : (m.poke a v).wf = true := by
  unfold Memory.poke
  split
  · exact wfFrom_clear a h
  · rename_i hv
    exact wfFrom_enter hv ha (Nat.zero_le a) (wfFrom_clear a h) (not_mem_clear m a)

/-- Reading any cell after `MemWrite`. -/
@[simp] theorem memWrite_cell (s : State) (a v b : Word) : (memWrite s a v).cell b = if b = a then v else s.cell b := by
  simp [State.cell, memWrite, BitVec.toNat_inj]

/-- `MemWrite` keeps the canonical form. -/
theorem memWrite_wf {s : State} (a v : Word) (h : s.mem.wf = true) : (memWrite s a v).mem.wf = true :=
  wf_poke v a.isLt h

end Sys2Proof.Machine
end

