-- ==== Sys2Proof/Laws/Ops.lean ====
section
/-! SUPPORT. One lemma per shared operation that says everything it can do: the keyboard poll, a memory read, the fetch, a
blocking read. -/

namespace Sys2Proof.Machine

/-- Everything `pollKeyboard` can do (R53). -/
theorem pollKeyboard_cases (s : State) :
    (∃ k c, s.keyboard.poll = (k, some c) ∧ pollKeyboard s =
      memWrite (memWrite (s.setKeyboard k) kbsr (readyStatus s.params.kbsrSetMode (s.cell kbsr))) kbdr (zext c)) ∨
    (∃ k, s.keyboard.poll = (k, none) ∧ pollKeyboard s = memWrite (s.setKeyboard k) kbsr 0x0000) := by
  unfold pollKeyboard
  split
  · rename_i k c h; exact .inl ⟨k, c, h, rfl⟩
  · rename_i k h; exact .inr ⟨k, h, rfl⟩

@[simp] theorem readEffect_plain {a : Word} (s : State) (h : a ≠ kbsr) : readEffect s a = s := if_neg h

theorem readEffect_kbsr (s : State) : readEffect s kbsr = pollKeyboard s := if_pos rfl

/-- A read of any address but 0xFE00 returns the cell and changes nothing (R50). -/
theorem memRead_plain {a : Word} (s : State) (h : a ≠ kbsr) : memRead s a = (s.cell a, s) := by
  simp [memRead, h]

@[simp] theorem memRead_fst (s : State) (a : Word) : (memRead s a).1 = (readEffect s a).cell a := rfl

@[simp] theorem memRead_snd (s : State) (a : Word) : (memRead s a).2 = readEffect s a := rfl

/-- A read leaves every part of the state alone but memory and the keyboard. -/
theorem readEffect_keeps (s : State) (a : Word) : (readEffect s a).gpr = s.gpr ∧ (readEffect s a).pc = s.pc ∧
    (readEffect s a).cond = s.cond ∧ (readEffect s a).run = s.run ∧ (readEffect s a).output = s.output ∧
    (readEffect s a).params = s.params := by
  unfold readEffect
  split
  · obtain ⟨k, c, -, h⟩ | ⟨k, -, h⟩ := pollKeyboard_cases s <;> simp [h]
  · simp

@[simp] theorem readEffect_gpr (s : State) (a : Word) : (readEffect s a).gpr = s.gpr := (readEffect_keeps s a).1
@[simp] theorem readEffect_pc (s : State) (a : Word) : (readEffect s a).pc = s.pc := (readEffect_keeps s a).2.1
@[simp] theorem readEffect_cond (s : State) (a : Word) : (readEffect s a).cond = s.cond := (readEffect_keeps s a).2.2.1
@[simp] theorem readEffect_run (s : State) (a : Word) : (readEffect s a).run = s.run := (readEffect_keeps s a).2.2.2.1
@[simp] theorem readEffect_output (s : State) (a : Word) : (readEffect s a).output = s.output :=
  (readEffect_keeps s a).2.2.2.2.1
@[simp] theorem readEffect_params (s : State) (a : Word) : (readEffect s a).params = s.params :=
  (readEffect_keeps s a).2.2.2.2.2
@[simp] theorem readEffect_reg (s : State) (a : Word) (r : Reg) : (readEffect s a).reg r = s.reg r := by
  simp [State.reg]

/-- A read changes no cell but the two keyboard cells. -/
theorem readEffect_cell (s : State) (a b : Word) (hs : b ≠ kbsr) (hd : b ≠ kbdr) :
    (readEffect s a).cell b = s.cell b := by
  unfold readEffect
  split
  · obtain ⟨k, c, -, h⟩ | ⟨k, -, h⟩ := pollKeyboard_cases s <;> rw [h] <;> simp [hs, hd]
  · rfl

/-- A read keeps the canonical form of memory. -/
theorem readEffect_wf {s : State} (a : Word) (h : s.mem.wf = true) : (readEffect s a).mem.wf = true := by
  unfold readEffect
  split
  · obtain ⟨k, c, -, e⟩ | ⟨k, -, e⟩ := pollKeyboard_cases s <;> rw [e]
    · exact memWrite_wf _ _ (memWrite_wf _ _ h)
    · exact memWrite_wf _ _ h
  · exact h

/-- Everything a blocking read can do (R115, R118, R123). -/
theorem readChar_cases (s : State) :
    (∃ c k, s.keyboard.read = some (c, k) ∧ readChar s = some (c, s.setKeyboard k)) ∨
    (s.keyboard.read = none ∧ readChar s = none) := by
  unfold readChar
  split
  · rename_i c k h; exact .inl ⟨c, k, h, rfl⟩
  · rename_i h; exact .inr ⟨h, rfl⟩

/-- The fetch (R76): the word that `MemRead` returns, and the state after its side effect with PC incremented. -/
theorem fetch_eq (s : State) : fetch s = ((readEffect s s.pc).cell s.pc, (readEffect s s.pc).setPc (s.pc + 1)) := rfl

/-- A fetch from any address but 0xFE00. -/
theorem fetch_plain (s : State) (h : s.pc ≠ kbsr) : fetch s = (s.cell s.pc, s.setPc (s.pc + 1)) := by
  simp [fetch_eq, h]

end Sys2Proof.Machine
end

