-- ==== Sys2Proof/Laws/Scan.lean ====
section
/-! SUPPORT. The scan of PUTS and PUTSP: one unfolding at a zero cell, one at any other, and what every finished scan keeps. -/

namespace Sys2Proof.Machine

theorem scan_stop {chars : Word → List Word} {a : Word} {s : State} (n : Nat) (h : (readEffect s a).cell a = 0) :
    scan chars (n + 1) a s = some (readEffect s a) := by
  simp only [scan, memRead]
  exact if_pos h

theorem scan_go {chars : Word → List Word} {a : Word} {s : State} (n : Nat) (h : (readEffect s a).cell a ≠ 0) :
    scan chars (n + 1) a s =
      scan chars n (a + 1) ((readEffect s a).write (chars ((readEffect s a).cell a))) := by
  simp only [scan, memRead]
  exact if_neg h

/-- What holds before a scan holds after it, if every read and every `write_char` keeps it. -/
theorem scan_keeps {P : State → Prop} (read : ∀ s a, P s → P (readEffect s a))
    (write : ∀ s cs, P s → P (s.write cs)) {chars : Word → List Word} {n : Nat} {a : Word} {s t : State}
    (done : scan chars n a s = some t) (h : P s) : P t := by
  induction n generalizing a s with
  | zero => simp [scan] at done
  | succ n ih =>
    by_cases z : (readEffect s a).cell a = 0
    · rw [scan_stop n z] at done
      cases done
      exact read s a h
    · rw [scan_go n z] at done
      exact ih done (write _ _ (read s a h))

/-- More fuel changes nothing once a scan has ended. -/
theorem scan_fuel_mono {chars : Word → List Word} {n m : Nat} {a : Word} {s t : State} (le : n ≤ m)
    (done : scan chars n a s = some t) : scan chars m a s = some t := by
  induction n generalizing m a s with
  | zero => simp [scan] at done
  | succ n ih =>
    obtain ⟨m, rfl⟩ : ∃ k, m = k + 1 := ⟨m - 1, by omega⟩
    by_cases z : (readEffect s a).cell a = 0
    · rw [scan_stop n z] at done
      rw [scan_stop m z, done]
    · rw [scan_go n z] at done
      rw [scan_go m z, ih (by omega) done]

/-- Less fuel ends no scan that more fuel does not end. -/
theorem scan_none_le {chars : Word → List Word} {n m : Nat} {a : Word} {s : State} (le : m ≤ n)
    (h : scan chars n a s = none) : scan chars m a s = none := by
  by_contra c
  obtain ⟨t, ht⟩ := Option.ne_none_iff_exists'.1 c
  rw [scan_fuel_mono le ht] at h
  cases h

/-- Two states in which every read gives the same: same cells, same host, same parameters. -/
def SameReads (s t : State) : Prop := (∀ b : Word, t.cell b = s.cell b) ∧ t.keyboard = s.keyboard ∧ t.params = s.params

theorem SameReads.readEffect {s t : State} (h : SameReads s t) (a : Word) :
    SameReads (readEffect s a) (Machine.readEffect t a) := by
  unfold Machine.readEffect
  split
  · unfold pollKeyboard
    rw [h.2.1]
    split
    · refine ⟨fun b => ?_, rfl, h.2.2⟩
      simp only [memWrite_cell, h.2.2, h.1 kbsr]
      split <;> try rfl
      split <;> try rfl
      exact h.1 b
    · refine ⟨fun b => ?_, rfl, h.2.2⟩
      simp only [memWrite_cell]
      split <;> try rfl
      exact h.1 b
  · exact h

/-- Whether a scan ends depends on what its reads give, and on nothing else. -/
theorem scan_none_congr {chars : Word → List Word} {n : Nat} {a : Word} {s t : State} (h : SameReads s t)
    (h0 : scan chars n a s = none) : scan chars n a t = none := by
  induction n generalizing a s t with
  | zero => rfl
  | succ n ih =>
    have r := h.readEffect a
    by_cases z : (readEffect s a).cell a = 0
    · rw [scan_stop n z] at h0
      cases h0
    · rw [scan_go n z] at h0
      rw [scan_go n (by rw [r.1 a]; exact z)]
      exact ih (s := (readEffect s a).write _) (t := (readEffect t a).write _) ⟨r.1, r.2.1, r.2.2⟩ h0

/-- A scan that has not ended after `n + 1` reads read a nonzero cell first, and has not ended `n` reads after that. -/
theorem scan_none_succ {chars : Word → List Word} {n : Nat} {a : Word} {s : State} :
    scan chars (n + 1) a s = none ↔
      (readEffect s a).cell a ≠ 0 ∧ scan chars n (a + 1) (readEffect s a) = none := by
  by_cases z : (readEffect s a).cell a = 0
  · simp [scan_stop n z, z]
  · rw [scan_go n z]
    have same : ∀ l, SameReads ((readEffect s a).write l) (readEffect s a) := fun l => ⟨fun _ => rfl, rfl, rfl⟩
    exact ⟨fun h => ⟨z, scan_none_congr (same _) h⟩,
      fun h => scan_none_congr (s := readEffect s a) ⟨fun _ => rfl, rfl, rfl⟩ h.2⟩

/-- A ready status word is not zero: its bit 15 is set. -/
theorem readyStatus_ne_zero (mode : KbsrSetMode) (old : Word) : readyStatus mode old ≠ 0 := by
  intro h
  have bit : (readyStatus mode old).getLsbD 15 = true := by
    cases mode
    · simp only [readyStatus, BitVec.getLsbD_or, Bool.or_eq_true]
      exact .inr (by decide)
    · simp only [readyStatus]
      decide
  rw [h] at bit
  exact absurd bit (by decide)

/-- A character that is not NUL makes a nonzero data cell. -/
theorem zext_ne_zero {c : Byte} (h : c ≠ 0) : zext c ≠ 0 := by
  intro z
  apply h
  have low := congrArg (BitVec.setWidth 8) z
  simpa [zext] using low

/-- A host that supplies characters without end, and no zero cell but perhaps the status cell. -/
def NoZeroToCome (s : State) : Prop := (∃ n, s.keyboard = ⟨[], .endless n⟩) ∧ ∀ b : Word, b ≠ kbsr → s.cell b ≠ 0

theorem NoZeroToCome.readEffect {s : State} (h : NoZeroToCome s) (a : Word) :
    NoZeroToCome (Machine.readEffect s a) ∧ (Machine.readEffect s a).cell a ≠ 0 := by
  obtain ⟨⟨n, hk⟩, nz⟩ := h
  unfold Machine.readEffect
  split
  · rename_i ha
    have poll : pollKeyboard s = memWrite (memWrite (s.setKeyboard ⟨[], .endless (n + 1)⟩) kbsr
        (readyStatus s.params.kbsrSetMode (s.cell kbsr))) kbdr (zext (nonNul (Config.hostTyped n))) := by
      unfold pollKeyboard
      rw [hk, Keyboard.poll_endless]
    have every : ∀ b : Word, (pollKeyboard s).cell b ≠ 0 := by
      intro b
      rw [poll]
      simp only [memWrite_cell, setKeyboard_cell]
      split
      · exact zext_ne_zero (nonNul_ne_zero _)
      · split
        · exact readyStatus_ne_zero _ _
        · rename_i hb; exact nz b hb
    exact ⟨⟨⟨n + 1, by rw [poll]; rfl⟩, fun b _ => every b⟩, every a⟩
  · rename_i ha; exact ⟨⟨⟨n, hk⟩, nz⟩, nz a ha⟩

/-- Such a scan never ends. -/
theorem NoZeroToCome.scan {s : State} (h : NoZeroToCome s) (chars : Word → List Word) (n : Nat) (a : Word) :
    scan chars n a s = none := by
  induction n generalizing a s with
  | zero => rfl
  | succ n ih =>
    obtain ⟨next, nz⟩ := h.readEffect a
    exact scan_none_succ.2 ⟨nz, ih next (a + 1)⟩

end Sys2Proof.Machine
end

