-- ==== Sys2Proof/Laws/Exec.lean ====
section
/-! SUPPORT. What every instruction keeps: the one induction over the instructions that the invariants of the machine are
derived from. -/

namespace Sys2Proof.Machine

/-- A property of states that every shared operation keeps. -/
structure KeptByOps (P : State → Prop) : Prop where
  setReg : ∀ s r v, P s → P (s.setReg r v)
  setPc : ∀ s t, P s → P (s.setPc t)
  setcc : ∀ s v, P s → P (setcc s v)
  memWrite : ∀ s a v, P s → P (memWrite s a v)
  readEffect : ∀ s a, P s → P (readEffect s a)
  write : ∀ s cs, P s → P (s.write cs)
  echo : ∀ s c, P s → P (s.echo c)
  setKeyboard : ∀ s k, P s → P (s.setKeyboard k)
  raiseFault : ∀ s r, P s → P (raiseFault s r)
  haltCore : ∀ s, P s → P (haltCore s)

variable {P : State → Prop}

theorem KeptByOps.writeResult (h : KeptByOps P) {s : State} (r : Reg) (v : Word) (hs : P s) : P (writeResult s r v) :=
  h.setcc _ _ (h.setReg _ _ _ hs)

theorem KeptByOps.trapLink (h : KeptByOps P) {s : State} (hs : P s) : P (trapLink s) := by
  unfold Machine.trapLink
  split
  · exact h.setReg _ _ _ hs
  · exact hs

/-- A TRAP keeps what every operation keeps. -/
theorem KeptByOps.execTrap (h : KeptByOps P) {v : BitVec 8} {s t : State} (e : execTrap v s = .next t) (hs : P s) :
    P t := by
  have hl := h.trapLink hs
  revert e
  unfold Machine.execTrap
  generalize Machine.trapLink s = u at hl ⊢
  split
  · obtain ⟨c, k, -, r⟩ | ⟨-, r⟩ := readChar_cases u
    · simp only [serviceGetc, r]
      rintro ⟨⟩
      exact h.setReg _ _ _ (h.setKeyboard _ _ hl)
    · simp [serviceGetc, r]
  · rintro ⟨⟩
    exact h.write _ _ hl
  · simp only [servicePuts, serviceScan]
    split
    · rename_i w done
      rintro ⟨⟩
      exact scan_keeps h.readEffect h.write done hl
    · simp
  · obtain ⟨c, k, -, r⟩ | ⟨-, r⟩ := readChar_cases (u.write u.params.inPrompt)
    · simp only [serviceIn, r]
      rintro ⟨⟩
      exact h.setReg _ _ _ (h.echo _ _ (h.setKeyboard _ _ (h.write _ _ hl)))
    · simp [serviceIn, r]
  · simp only [servicePutsp, serviceScan]
    split
    · rename_i w done
      rintro ⟨⟩
      exact scan_keeps h.readEffect h.write done hl
    · simp
  · rintro ⟨⟩
    exact h.haltCore _ (h.write _ _ hl)
  · unfold serviceUnknown
    split
    · rintro ⟨⟩
      exact hl
    · rintro ⟨⟩
      exact h.raiseFault _ _ hl

/-- Every instruction that completes keeps what every operation keeps. -/
theorem KeptByOps.exec (h : KeptByOps P) {i : Instr} {s t : State} (e : exec i s = .next t) (hs : P s) : P t := by
  cases i with
  | trap v => exact h.execTrap e hs
  | addReg | addImm | andReg | andImm | not | lea => cases e; exact h.writeResult _ _ hs
  | br mask off9 =>
    cases e
    split
    · exact h.setPc _ _ hs
    · exact hs
  | jmp => cases e; exact h.setPc _ _ hs
  | jsr => cases e; exact h.setPc _ _ (h.setReg _ _ _ hs)
  | jsrr baseR =>
    simp only [Machine.exec, execJsrr] at e
    split at e <;> cases e <;> exact h.setPc _ _ (h.setReg _ _ _ hs)
  | ld | ldr => cases e; exact h.writeResult _ _ (h.readEffect _ _ hs)
  | ldi => cases e; exact h.writeResult _ _ (h.readEffect _ _ (h.readEffect _ _ hs))
  | st | str => cases e; exact h.memWrite _ _ _ hs
  | sti => cases e; exact h.memWrite _ _ _ (h.readEffect _ _ hs)
  | reserved8 | reserved13 => cases e; exact h.raiseFault _ _ hs

/-- Everything `step` can do: it runs the decoded instruction of a running core, or stops in a terminal state. -/
theorem step_cases (s : State) :
    (s.run = .running ∧ step s = exec (decode (fetch s).1) (fetch s).2) ∨
    (s.run = .halted ∧ step s = .fault .halted) ∨
    (∃ r, s.run = .faulted r ∧ step s = .fault .faulted) := by
  unfold step
  split
  · rename_i h; exact .inl ⟨h, rfl⟩
  · rename_i h; exact .inr (.inl ⟨h, rfl⟩)
  · rename_i r h; exact .inr (.inr ⟨r, h, rfl⟩)

/-- A step that answers a next state runs the decoded instruction of a running core. -/
theorem step_next {s t : State} (e : step s = .next t) :
    s.run = .running ∧ exec (decode (fetch s).1) (fetch s).2 = .next t := by
  obtain ⟨h, q⟩ | ⟨-, q⟩ | ⟨r, -, q⟩ := step_cases s
  · exact ⟨h, q ▸ e⟩
  · rw [q] at e; cases e
  · rw [q] at e; cases e

/-- Every step keeps what every operation keeps. -/
theorem KeptByOps.step (h : KeptByOps P) {s t : State} (e : step s = .next t) (hs : P s) : P t :=
  h.exec (step_next e).2 (h.setPc _ _ (h.readEffect _ _ hs))

end Sys2Proof.Machine
end

