-- ==== Sys2Proof/Laws/Loader.lean ====
section
/-! SUPPORT. The loader state machine says the same as a plain recursion over the image, and what it leaves in memory. -/

namespace Sys2Proof.Machine

/-- Word after word of the image into memory from address `a` on, until the bytes or the addresses run out (R146, R149). -/
def loadFromAddress : Nat → List Byte → Memory → Memory
  | a, b0 :: b1 :: rest, m =>
    if a ≤ 0xFFFF then loadFromAddress (a + 1) rest (m.poke a (imageWord b0 b1)) else m
  | _, _, m => m

theorem loaderRun_done (n : Nat) (bytes : List Byte) (m : Memory) :
    loaderRun n ⟨.done, bytes, m⟩ = ⟨.done, bytes, m⟩ := by
  induction n with
  | zero => rfl
  | succ n ih => exact ih

/-- The machine in LOAD. -/
theorem loaderRun_load (n a : Nat) (bytes : List Byte) (m : Memory) (enough : bytes.length < n) :
    (loaderRun n ⟨.load a, bytes, m⟩).mem = loadFromAddress a bytes m := by
  induction n generalizing a bytes m with
  | zero => omega
  | succ n ih =>
    match bytes with
    | [] | [_] => simp [loaderRun, loaderStep, loaderRun_done, loadFromAddress]
    | b0 :: b1 :: rest =>
      simp only [loaderRun, loaderStep, loadFromAddress]
      split
      · exact ih _ _ _ (by simp at enough; omega)
      · rw [loaderRun_done]

/-- The loaded memory: the first word is the origin, the others follow from there (R147). -/
theorem loadImage_eq (b0 b1 : Byte) (rest : List Byte) :
    loadImage (b0 :: b1 :: rest) = loadFromAddress (imageWord b0 b1).toNat rest [] :=
  loaderRun_load _ _ _ _ (by simp)

/-- An image without a whole first word loads nothing (R150). -/
theorem loadImage_short {image : List Byte} (h : image.length < 2) : loadImage image = [] := by
  match image with
  | [] | [_] => rfl

theorem loadFromAddress_wf (a : Nat) (bytes : List Byte) (m : Memory) (h : m.wf = true) :
    (loadFromAddress a bytes m).wf = true := by
  induction a, bytes, m using loadFromAddress.induct with
  | case1 a b0 b1 rest m le ih =>
    rw [loadFromAddress, if_pos le]
    exact ih (wf_poke _ (by omega) h)
  | case2 a b0 b1 rest m gt => rw [loadFromAddress, if_neg gt]; exact h
  | case3 a bytes m short => rw [loadFromAddress]; exact h; exact short

/-- Whatever the image, the loaded memory is in canonical form. -/
theorem loadImage_wf (image : List Byte) : (loadImage image).wf = true := by
  match image with
  | [] | [_] => rfl
  | b0 :: b1 :: rest => rw [loadImage_eq]; exact loadFromAddress_wf _ _ _ rfl

end Sys2Proof.Machine
end

