-- ==== Sys2Proof/Laws/PerInstr.lean ====
section
/-! SUPPORT. Per instruction: it is well-formed, and the word the encoder writes belongs to the instruction's row of the
opcode table, with every ignored bit 0. -/

namespace Sys2Proof.Laws.EncodesInRow

/-- What is said of each instruction. -/
def Statement (i : Instr) : Prop :=
  i.wellFormed = true ∧
  ∃ r ∈ opcodeTable, r.form = i.form ∧ r.accepts (encode i) = true ∧ encode i &&& r.named = encode i

/-- The proof for one row, from what its mask and its named bits leave of the encoded word. -/
theorem of_row {i : Instr} (r : Row) (mem : r ∈ opcodeTable) (form : r.form = i.form)
    (masked : encode i &&& r.mask = r.pattern) (named : encode i &&& r.named = encode i) : Statement i :=
  ⟨wellFormed_all i, r, mem, form, beq_iff_eq.mpr masked, named⟩

/-- Two words are equal if each of their sixteen bits is. -/
theorem word_ext {a b : Word} (h : ∀ k < 16, a.getLsbD k = b.getLsbD k) : a = b :=
  BitVec.eq_of_getLsbD_eq h

theorem addReg (dr sr1 sr2 : Reg) : Statement (.addReg dr sr1 sr2) := by
  refine of_row ⟨.addReg, 0xF020, 0x1000, 0xFFE7⟩ (by simp [opcodeTable]) rfl (word_ext fun k hk => ?_) (word_ext fun k hk => ?_) <;>
  interval_cases k <;> simp [encode, place_getLsbD, -BitVec.getLsbD_eq_getElem]

theorem addImm (dr sr1 : Reg) (imm5 : BitVec 5) : Statement (.addImm dr sr1 imm5) := by
  refine of_row ⟨.addImm, 0xF020, 0x1020, 0xFFFF⟩ (by simp [opcodeTable]) rfl (word_ext fun k hk => ?_) (word_ext fun k hk => ?_) <;>
  interval_cases k <;> simp [encode, place_getLsbD, -BitVec.getLsbD_eq_getElem]

theorem andReg (dr sr1 sr2 : Reg) : Statement (.andReg dr sr1 sr2) := by
  refine of_row ⟨.andReg, 0xF020, 0x5000, 0xFFE7⟩ (by simp [opcodeTable]) rfl (word_ext fun k hk => ?_) (word_ext fun k hk => ?_) <;>
  interval_cases k <;> simp [encode, place_getLsbD, -BitVec.getLsbD_eq_getElem]

theorem andImm (dr sr1 : Reg) (imm5 : BitVec 5) : Statement (.andImm dr sr1 imm5) := by
  refine of_row ⟨.andImm, 0xF020, 0x5020, 0xFFFF⟩ (by simp [opcodeTable]) rfl (word_ext fun k hk => ?_) (word_ext fun k hk => ?_) <;>
  interval_cases k <;> simp [encode, place_getLsbD, -BitVec.getLsbD_eq_getElem]

theorem not (dr sr : Reg) : Statement (.not dr sr) := by
  refine of_row ⟨.not, 0xF000, 0x9000, 0xFFC0⟩ (by simp [opcodeTable]) rfl (word_ext fun k hk => ?_) (word_ext fun k hk => ?_) <;>
  interval_cases k <;> simp [encode, place_getLsbD, -BitVec.getLsbD_eq_getElem]

theorem br (mask : BitVec 3) (off9 : BitVec 9) : Statement (.br mask off9) := by
  refine of_row ⟨.br, 0xF000, 0x0000, 0xFFFF⟩ (by simp [opcodeTable]) rfl (word_ext fun k hk => ?_) (word_ext fun k hk => ?_) <;>
  interval_cases k <;> simp [encode, place_getLsbD, -BitVec.getLsbD_eq_getElem]

theorem jmp (baseR : Reg) : Statement (.jmp baseR) := by
  refine of_row ⟨.jmp, 0xF000, 0xC000, 0xF1C0⟩ (by simp [opcodeTable]) rfl (word_ext fun k hk => ?_) (word_ext fun k hk => ?_) <;>
  interval_cases k <;> simp [encode, place_getLsbD, -BitVec.getLsbD_eq_getElem]

theorem jsr (off11 : BitVec 11) : Statement (.jsr off11) := by
  refine of_row ⟨.jsr, 0xF800, 0x4800, 0xFFFF⟩ (by simp [opcodeTable]) rfl (word_ext fun k hk => ?_) (word_ext fun k hk => ?_) <;>
  interval_cases k <;> simp [encode, place_getLsbD, -BitVec.getLsbD_eq_getElem]

theorem jsrr (baseR : Reg) : Statement (.jsrr baseR) := by
  refine of_row ⟨.jsrr, 0xF800, 0x4000, 0xF9C0⟩ (by simp [opcodeTable]) rfl (word_ext fun k hk => ?_) (word_ext fun k hk => ?_) <;>
  interval_cases k <;> simp [encode, place_getLsbD, -BitVec.getLsbD_eq_getElem]

theorem ld (dr : Reg) (off9 : BitVec 9) : Statement (.ld dr off9) := by
  refine of_row ⟨.ld, 0xF000, 0x2000, 0xFFFF⟩ (by simp [opcodeTable]) rfl (word_ext fun k hk => ?_) (word_ext fun k hk => ?_) <;>
  interval_cases k <;> simp [encode, place_getLsbD, -BitVec.getLsbD_eq_getElem]

theorem ldi (dr : Reg) (off9 : BitVec 9) : Statement (.ldi dr off9) := by
  refine of_row ⟨.ldi, 0xF000, 0xA000, 0xFFFF⟩ (by simp [opcodeTable]) rfl (word_ext fun k hk => ?_) (word_ext fun k hk => ?_) <;>
  interval_cases k <;> simp [encode, place_getLsbD, -BitVec.getLsbD_eq_getElem]

theorem ldr (dr baseR : Reg) (off6 : BitVec 6) : Statement (.ldr dr baseR off6) := by
  refine of_row ⟨.ldr, 0xF000, 0x6000, 0xFFFF⟩ (by simp [opcodeTable]) rfl (word_ext fun k hk => ?_) (word_ext fun k hk => ?_) <;>
  interval_cases k <;> simp [encode, place_getLsbD, -BitVec.getLsbD_eq_getElem]

theorem lea (dr : Reg) (off9 : BitVec 9) : Statement (.lea dr off9) := by
  refine of_row ⟨.lea, 0xF000, 0xE000, 0xFFFF⟩ (by simp [opcodeTable]) rfl (word_ext fun k hk => ?_) (word_ext fun k hk => ?_) <;>
  interval_cases k <;> simp [encode, place_getLsbD, -BitVec.getLsbD_eq_getElem]

theorem st (sr : Reg) (off9 : BitVec 9) : Statement (.st sr off9) := by
  refine of_row ⟨.st, 0xF000, 0x3000, 0xFFFF⟩ (by simp [opcodeTable]) rfl (word_ext fun k hk => ?_) (word_ext fun k hk => ?_) <;>
  interval_cases k <;> simp [encode, place_getLsbD, -BitVec.getLsbD_eq_getElem]

theorem sti (sr : Reg) (off9 : BitVec 9) : Statement (.sti sr off9) := by
  refine of_row ⟨.sti, 0xF000, 0xB000, 0xFFFF⟩ (by simp [opcodeTable]) rfl (word_ext fun k hk => ?_) (word_ext fun k hk => ?_) <;>
  interval_cases k <;> simp [encode, place_getLsbD, -BitVec.getLsbD_eq_getElem]

theorem str (sr baseR : Reg) (off6 : BitVec 6) : Statement (.str sr baseR off6) := by
  refine of_row ⟨.str, 0xF000, 0x7000, 0xFFFF⟩ (by simp [opcodeTable]) rfl (word_ext fun k hk => ?_) (word_ext fun k hk => ?_) <;>
  interval_cases k <;> simp [encode, place_getLsbD, -BitVec.getLsbD_eq_getElem]

theorem trap (trapvect8 : BitVec 8) : Statement (.trap trapvect8) := by
  refine of_row ⟨.trap, 0xF000, 0xF000, 0xF0FF⟩ (by simp [opcodeTable]) rfl (word_ext fun k hk => ?_) (word_ext fun k hk => ?_) <;>
  interval_cases k <;> simp [encode, place_getLsbD, -BitVec.getLsbD_eq_getElem]

theorem reserved8 : Statement .reserved8 := by
  refine of_row ⟨.reserved8, 0xF000, 0x8000, 0xF000⟩ (by simp [opcodeTable]) rfl (word_ext fun k hk => ?_) (word_ext fun k hk => ?_) <;>
  interval_cases k <;> simp [encode, -BitVec.getLsbD_eq_getElem]

theorem reserved13 : Statement .reserved13 := by
  refine of_row ⟨.reserved13, 0xF000, 0xD000, 0xF000⟩ (by simp [opcodeTable]) rfl (word_ext fun k hk => ?_) (word_ext fun k hk => ?_) <;>
  interval_cases k <;> simp [encode, -BitVec.getLsbD_eq_getElem]

end Sys2Proof.Laws.EncodesInRow
end

