-- ==== Sys2Proof/Laws/Trap.lean ====
section
/-! SUPPORT. TRAP: what the link does, what a finished scan keeps, and the one lemma that says everything a TRAP can do. -/

namespace Sys2Proof.Machine

/-- What `if TRAP_LINKS_R7: x[7] <- pc` leaves alone. -/
theorem trapLink_keeps (s : State) : (trapLink s).pc = s.pc ∧ (trapLink s).cond = s.cond ∧ (trapLink s).run = s.run ∧
    (trapLink s).mem = s.mem ∧ (trapLink s).keyboard = s.keyboard ∧ (trapLink s).output = s.output ∧
    (trapLink s).params = s.params := by
  unfold trapLink
  split <;> exact ⟨rfl, rfl, rfl, rfl, rfl, rfl, rfl⟩

@[simp] theorem trapLink_pc (s : State) : (trapLink s).pc = s.pc := (trapLink_keeps s).1
@[simp] theorem trapLink_cond (s : State) : (trapLink s).cond = s.cond := (trapLink_keeps s).2.1
@[simp] theorem trapLink_run (s : State) : (trapLink s).run = s.run := (trapLink_keeps s).2.2.1
@[simp] theorem trapLink_mem (s : State) : (trapLink s).mem = s.mem := (trapLink_keeps s).2.2.2.1
@[simp] theorem trapLink_keyboard (s : State) : (trapLink s).keyboard = s.keyboard := (trapLink_keeps s).2.2.2.2.1
@[simp] theorem trapLink_output (s : State) : (trapLink s).output = s.output := (trapLink_keeps s).2.2.2.2.2.1
@[simp] theorem trapLink_params (s : State) : (trapLink s).params = s.params := (trapLink_keeps s).2.2.2.2.2.2

@[simp] theorem trapLink_cell (s : State) (a : Word) : (trapLink s).cell a = s.cell a := by simp [State.cell]

/-- The registers after the link. -/
@[simp] theorem trapLink_reg (s : State) (q : Reg) :
    (trapLink s).reg q = if s.params.trapLinksR7 = true ∧ q = .r7 then s.pc else s.reg q := by
  unfold trapLink
  by_cases h : s.params.trapLinksR7 = true <;> simp [h]

/-- The vectors with no service are those outside 0x20 to 0x25 (R121). -/
theorem serviceOf_unknown_iff (v : BitVec 8) : serviceOf v = .unknown ↔ v.toNat < 0x20 ∨ 0x25 < v.toNat := by
  revert v; decide

/-- Everything the dispatch on the vector can answer (R114). -/
theorem serviceOf_cases (v : BitVec 8) :
    (v = 0x20 ∧ serviceOf v = .getc) ∨ (v = 0x21 ∧ serviceOf v = .out) ∨ (v = 0x22 ∧ serviceOf v = .puts) ∨
    (v = 0x23 ∧ serviceOf v = .inChar) ∨ (v = 0x24 ∧ serviceOf v = .putsp) ∨ (v = 0x25 ∧ serviceOf v = .halt) ∨
    serviceOf v = .unknown := by
  revert v; decide

/-- What a finished scan keeps: everything but the output, the characters to come and the two keyboard cells. -/
theorem scan_frame {chars : Word → List Word} {n : Nat} {a : Word} {s t : State} (done : scan chars n a s = some t) :
    t.gpr = s.gpr ∧ t.pc = s.pc ∧ t.cond = s.cond ∧ t.run = s.run ∧ t.params = s.params ∧
      MemKept [kbsr, kbdr] s t := by
  refine scan_keeps (P := fun u => u.gpr = s.gpr ∧ u.pc = s.pc ∧ u.cond = s.cond ∧ u.run = s.run ∧
    u.params = s.params ∧ MemKept [kbsr, kbdr] s u) ?_ (fun u cs h => h) done
    ⟨rfl, rfl, rfl, rfl, rfl, fun _ _ => rfl⟩
  rintro u b ⟨h1, h2, h3, h4, h5, h6⟩
  refine ⟨by simpa, by simpa, by simpa, by simpa, by simpa, fun c hc => ?_⟩
  rw [← h6 c hc]
  simp only [List.mem_cons, List.not_mem_nil, or_false, not_or] at hc
  exact readEffect_cell _ _ _ hc.1 hc.2

/-- Everything a TRAP that completes can do. -/
theorem execTrap_next {v : BitVec 8} {s t : State} (e : execTrap v s = .next t) :
    (v = 0x20 ∧ ∃ c k, s.keyboard.read = some (c, k) ∧ t = ((trapLink s).setKeyboard k).setReg .r0 (zext c)) ∨
    (v = 0x21 ∧ t = (trapLink s).write [lowChar (s.reg .r0)]) ∨
    (v = 0x22 ∧ scan putsChars (scanFuel s) (s.reg .r0) (trapLink s) = some t) ∨
    (v = 0x23 ∧ ∃ c k, s.keyboard.read = some (c, k) ∧
      t = ((((trapLink s).write s.params.inPrompt).setKeyboard k).echo c).setReg .r0 (zext c)) ∨
    (v = 0x24 ∧ scan putspChars (scanFuel s) (s.reg .r0) (trapLink s) = some t) ∨
    (v = 0x25 ∧ t = haltCore ((trapLink s).write s.params.haltNotice)) ∨
    (serviceOf v = .unknown ∧ s.params.unknownTrap = .noop ∧ t = trapLink s) ∨
    (serviceOf v = .unknown ∧ s.params.unknownTrap = .fault ∧ t = raiseFault (trapLink s) (.unknownTrap v)) := by
  have fuel : scanFuel (trapLink s) = scanFuel s := by simp [scanFuel]
  have r0 : (trapLink s).reg .r0 = s.reg .r0 := by simp
  obtain ⟨rfl, h⟩ | ⟨rfl, h⟩ | ⟨rfl, h⟩ | ⟨rfl, h⟩ | ⟨rfl, h⟩ | ⟨rfl, h⟩ | h := serviceOf_cases v <;>
    simp only [execTrap, h] at e
  · obtain ⟨c, k, rd, r⟩ | ⟨-, r⟩ := readChar_cases (trapLink s)
    · simp only [serviceGetc, r] at e
      cases e
      exact .inl ⟨rfl, c, k, by simpa using rd, rfl⟩
    · simp [serviceGetc, r] at e
  · cases e
    exact .inr (.inl ⟨rfl, by rw [r0]⟩)
  · simp only [servicePuts, serviceScan, fuel, r0] at e
    split at e
    · rename_i w done
      cases e
      exact .inr (.inr (.inl ⟨rfl, done⟩))
    · cases e
  · obtain ⟨c, k, rd, r⟩ | ⟨-, r⟩ := readChar_cases ((trapLink s).write (trapLink s).params.inPrompt)
    · simp only [serviceIn, r] at e
      cases e
      exact .inr (.inr (.inr (.inl ⟨rfl, c, k, by simpa using rd, by rw [trapLink_params]⟩)))
    · simp only [serviceIn, r] at e
      cases e
  · simp only [servicePutsp, serviceScan, fuel, r0] at e
    split at e
    · rename_i w done
      cases e
      exact .inr (.inr (.inr (.inr (.inl ⟨rfl, done⟩))))
    · cases e
  · cases e
    exact .inr (.inr (.inr (.inr (.inr (.inl ⟨rfl, by rw [trapLink_params]⟩)))))
  · simp only [serviceUnknown, trapLink_params] at e
    split at e <;> rename_i u <;> cases e
    · exact .inr (.inr (.inr (.inr (.inr (.inr (.inl ⟨h, u, rfl⟩))))))
    · exact .inr (.inr (.inr (.inr (.inr (.inr (.inr ⟨h, u, rfl⟩))))))

end Sys2Proof.Machine
end

