-- ==== Sys2Proof/Tests/Slice0.lean ====
section
/-! SUPPORT. Tests and witnesses. Every expected result is a vector or example of spec/ (W and V numbers of 95_test_vectors.md, or the
rule's own example). A witness shows that an obligation's hypotheses can be met, clause by clause. -/

namespace Sys2Proof.Tests

open Sys2Proof.Machine

/-- A running core at 0x3000 with COND = Z, all registers and cells 0, a silent host, the spec's parameters, and the
texts "H" and "?". -/
def idle : State :=
  { gpr := ⟨0, 0, 0, 0, 0, 0, 0, 0⟩
    pc := 0x3000
    cond := 0b010
    run := .running
    mem := []
    keyboard := ⟨[], .silent⟩
    output := []
    params := ⟨.or, false, .noop, .linkFirst, [0x48], [0x3F]⟩ }

/-- `idle` at address `a` with the word there, registers `g` and COND `c`. -/
def placed (a : Word) (w : Nat) (g : Gprs) (c : BitVec 3) : State :=
  { idle with pc := a, gpr := g, cond := c }.withFetchWord 16 w

/-- A cell stored. -/
def withCell (s : State) (a v : Word) : State := memWrite s a v

/-- A host that will supply this character at once. -/
def withKey (s : State) (c : Byte) : State := { s with keyboard := ⟨[⟨0, c⟩], .silent⟩ }

/-- The outcome is a next state of which the check holds. -/
def nextIs (o : Host.Outcome State Fault Refusal) (check : State → Bool) : Bool :=
  match o with
  | .next t => check t
  | .fault _ => false
  | .refused _ => false

/-- The outcome is this fault. -/
def faultIs (o : Host.Outcome State Fault Refusal) (f : Fault) : Bool :=
  match o with
  | .next _ => false
  | .fault g => decide (g = f)
  | .refused _ => false

def zeros : Gprs := ⟨0, 0, 0, 0, 0, 0, 0, 0⟩

/-! ### Well-formedness: numbers too large for a field are refused (R69, R70, R71) -/

theorem test_register_number_out_of_range : Operand.fits ⟨8, 3⟩ = false := by decide
theorem test_imm5_out_of_range : Operand.fits ⟨32, 5⟩ = false := by decide
theorem test_offset6_out_of_range : Operand.fits ⟨64, 6⟩ = false := by decide
theorem test_vector_out_of_range : Operand.fits ⟨256, 8⟩ = false := by decide
theorem test_offset9_out_of_range : Operand.fits ⟨512, 9⟩ = false := by decide
theorem test_offset11_out_of_range : Operand.fits ⟨2048, 11⟩ = false := by decide
theorem test_largest_operands_fit : (Instr.addImm .r7 .r7 31).wellFormed = true ∧
    (Instr.br 7 511).wellFormed = true ∧ (Instr.jsr 2047).wellFormed = true := by decide

/-! ### Decoding: words written out bit by bit from R65 and R66 -/

theorem test_decode_addReg : decode 0b0001_011_101_0_00_110 = .addReg .r3 .r5 .r6 := by decide
theorem test_decode_addImm : decode 0b0001_011_101_1_10000 = .addImm .r3 .r5 0b10000 := by decide
theorem test_decode_andReg : decode 0b0101_011_101_0_11_110 = .andReg .r3 .r5 .r6 := by decide
theorem test_decode_andImm : decode 0b0101_111_000_1_01111 = .andImm .r7 .r0 0b01111 := by decide
theorem test_decode_not : decode 0b1001_101_110_111111 = .not .r5 .r6 := by decide
theorem test_decode_br : decode 0b0000_1_0_1_100000001 = .br 0b101 0b100000001 := by decide
theorem test_decode_jmp : decode 0b1100_111_010_111111 = .jmp .r2 := by decide
theorem test_decode_jsr : decode 0b0100_1_10000000001 = .jsr 0b10000000001 := by decide
theorem test_decode_jsrr : decode 0b0100_0_11_011_000000 = .jsrr .r3 := by decide
theorem test_decode_ld : decode 0b0010_001_000000011 = .ld .r1 3 := by decide
theorem test_decode_ldi : decode 0b1010_010_100000000 = .ldi .r2 0b100000000 := by decide
theorem test_decode_ldr : decode 0b0110_011_100_111110 = .ldr .r3 .r4 0b111110 := by decide
theorem test_decode_lea : decode 0b1110_000_111111111 = .lea .r0 0b111111111 := by decide
theorem test_decode_st : decode 0b0011_001_000000010 = .st .r1 2 := by decide
theorem test_decode_sti : decode 0b1011_001_000000010 = .sti .r1 2 := by decide
theorem test_decode_str : decode 0b0111_001_010_000101 = .str .r1 .r2 5 := by decide
theorem test_decode_trap : decode 0b1111_1010_00100101 = .trap 0x25 := by decide
theorem test_decode_reserved8 : decode 0b1000_111111111111 = .reserved8 := by decide
theorem test_decode_reserved13 : decode 0b1101_000000000000 = .reserved13 := by decide
theorem test_decode_table_word : decodeTableWord 16 0x1225 = some (.addImm .r1 .r0 5) ∧
    decodeTableWord 32 0x1225 = none := by decide

/-! ### Operate -/

theorem test_add_wraps_signed : nextIs (step (placed 0x3000 0x1042 { zeros with r1 := 0x7FFF, r2 := 1 } 2)) (fun t =>
    t.reg .r0 = 0x8000 ∧ t.cond = 0b100 ∧ t.pc = 0x3001) := by decide -- V1
theorem test_add_ignores_bits_4_3 : nextIs (step (placed 0x3000 0x1058 { zeros with r0 := 3, r1 := 2 } 2)) (fun t =>
    t.reg .r0 = 5 ∧ t.cond = 0b001) := by decide -- V6
theorem test_addi_sign_extends : nextIs (step (placed 0x3000 0x16F0 { zeros with r3 := 0x0010 } 1)) (fun t =>
    t.reg .r3 = 0 ∧ t.cond = 0b010) := by decide -- V3
theorem test_addi_source_example : nextIs (step (placed 0x3000 0x1225 { zeros with r0 := 10 } 2)) (fun t =>
    t.reg .r1 = 15 ∧ t.cond = 0b001 ∧ t.pc = 0x3001) := by decide -- W7
theorem test_and_register : nextIs (step (placed 0x3000 0x5283 { zeros with r2 := 0xF0F0, r3 := 0x3C3C } 2)) (fun t =>
    t.reg .r1 = 0x3030 ∧ t.cond = 0b001) := by decide -- R94
theorem test_andi_minus_one : nextIs (step (placed 0x3000 0x52BF { zeros with r2 := 0x8001 } 2)) (fun t =>
    t.reg .r1 = 0x8001 ∧ t.cond = 0b100) := by decide -- V9
theorem test_andi_in_place : nextIs (step (placed 0x3000 0x592F { zeros with r4 := 0x1234 } 2)) (fun t =>
    t.reg .r4 = 0x0004 ∧ t.cond = 0b001) := by decide -- R95
theorem test_not_sign_bit : nextIs (step (placed 0x3000 0x9B80 { zeros with r6 := 0x8000 } 2)) (fun t =>
    t.reg .r5 = 0x7FFF ∧ t.cond = 0b001) := by decide -- V15
theorem test_not_in_place : nextIs (step (placed 0x3000 0x903F { zeros with r0 := 0xFFFF } 1)) (fun t =>
    t.reg .r0 = 0 ∧ t.cond = 0b010) := by decide -- V13

/-! ### Control transfer -/

theorem test_br_wraps_below_zero : nextIs (step (placed 0x0010 0x0500 zeros 0b010)) (fun t => t.pc = 0xFF11) := by decide -- V21
theorem test_br_other_flag : nextIs (step (placed 0x3000 0x0C02 zeros 0b001)) (fun t => t.pc = 0x3001) := by decide -- W11
theorem test_jmp_ignores_bits : nextIs (step (placed 0x3000 0xCE3F { zeros with r0 := 0x1234 } 2)) (fun t =>
    t.pc = 0x1234) := by decide -- V24
theorem test_ret : nextIs (step (placed 0x3000 0xC1C0 { zeros with r7 := 0x3010 } 2)) (fun t => t.pc = 0x3010) := by decide -- V23
theorem test_jsr_backwards : nextIs (step (placed 0x3000 0x4C00 zeros 2)) (fun t =>
    t.reg .r7 = 0x3001 ∧ t.pc = 0x2C01 ∧ t.cond = 0b010) := by decide -- V25
theorem test_jsr_at_the_top : nextIs (step (placed 0xFFFF 0x4800 zeros 2)) (fun t => t.reg .r7 = 0 ∧ t.pc = 0) := by
  decide -- V27
theorem test_jsrr_r7_link_first : nextIs (step (placed 0x3000 0x41C0 { zeros with r7 := 0x5000 } 2)) (fun t =>
    t.reg .r7 = 0x3001 ∧ t.pc = 0x3001) := by decide -- V29
theorem test_jsrr_r7_base_first : nextIs (step { placed 0x3000 0x41C0 { zeros with r7 := 0x5000 } 2 with
    params := { idle.params with jsrrOrder := .baseFirst } }) (fun t => t.reg .r7 = 0x3001 ∧ t.pc = 0x5000) := by decide -- V30

/-! ### Loads and stores -/

theorem test_ld_wraps : nextIs (step (withCell (placed 0xFFF0 0x20FF zeros 2) 0x00F0 0x8123)) (fun t =>
    t.reg .r0 = 0x8123 ∧ t.cond = 0b100) := by decide -- V32
theorem test_ldi_polls_ready : nextIs (step (withKey (withCell (withCell (placed 0x3000 0xA000 zeros 2) 0x3001 0xFE00) 0xFE00 5)
    0x61)) (fun t => t.reg .r0 = 0x8005 ∧ t.cond = 0b100 ∧ t.cell 0xFE02 = 0x0061 ∧ t.keyboard.pending = []) := by decide -- V35
theorem test_ldi_polls_not_ready : nextIs (step (withCell (withCell (placed 0x3000 0xA000 zeros 1) 0x3001 0xFE00) 0xFE00 5))
    (fun t => t.reg .r0 = 0 ∧ t.cond = 0b010 ∧ t.cell 0xFE00 = 0) := by decide -- V33
theorem test_ldr_negative_offset : nextIs (step (withCell (placed 0x3000 0x62A0 { zeros with r2 := 0x0010 } 2) 0xFFF0 0xFFFF))
    (fun t => t.reg .r1 = 0xFFFF ∧ t.cond = 0b100) := by decide -- V39
theorem test_ldr_in_place : nextIs (step (withCell (placed 0x3000 0x6000 { zeros with r0 := 0x4000 } 2) 0x4000 0x1234))
    (fun t => t.reg .r0 = 0x1234 ∧ t.cond = 0b001) := by decide -- V37
theorem test_lea_own_address : nextIs (step (placed 0x0000 0xE3FF zeros 1)) (fun t => t.reg .r1 = 0 ∧ t.cond = 0b010) := by
  decide -- V41
theorem test_lea_updates_flags : nextIs (step (placed 0x7F00 0xE2FF zeros 2)) (fun t =>
    t.reg .r1 = 0x8000 ∧ t.cond = 0b100) := by decide -- V40
theorem test_st : nextIs (step (placed 0x3000 0x3202 { zeros with r1 := 0xABCD } 2)) (fun t =>
    t.cell 0x3003 = 0xABCD ∧ t.cond = 0b010 ∧ t.pc = 0x3001) := by decide -- R110
theorem test_sti_plain_store_to_status : nextIs (step (withKey (withCell (placed 0x3000 0xB000 { zeros with r0 := 5 } 2) 0x3001
    0xFE00) 0x61)) (fun t => t.cell 0xFE00 = 5 ∧ t.keyboard.pending.length = 1) := by decide -- V43
theorem test_str_base_is_source : nextIs (step (placed 0x3000 0x7000 { zeros with r0 := 0x4000 } 2)) (fun t =>
    t.cell 0x4000 = 0x4000 ∧ t.cond = 0b010) := by decide -- V44

/-! ### TRAP and the reserved opcodes -/

theorem test_trap_getc_and_in : nextIs (step (withKey (placed 0x3000 0xFF20 zeros 1) 0x0A)) (fun t =>
      t.reg .r0 = 0x000A ∧ t.cond = 0b001 ∧ t.output = []) ∧
    nextIs (step (withKey (placed 0x3000 0xF023 zeros 1) 0x7A)) (fun t =>
      t.reg .r0 = 0x007A ∧ t.output = [.written 0x3F, .echoed 0x7A]) := by decide -- V46, V50
theorem test_trap_out_and_link : nextIs (step { placed 0x3000 0xF021 { zeros with r0 := 0xFF41 } 2 with
      params := { idle.params with trapLinksR7 := true } }) (fun t =>
      t.reg .r7 = 0x3001 ∧ t.reg .r0 = 0xFF41 ∧ t.output = [.written 0x41]) := by decide -- V47, V56
theorem test_trap_puts_wraps : nextIs (step (withCell (placed 0x3000 0xF022 { zeros with r0 := 0xFFFF } 2) 0xFFFF 0x0041))
    (fun t => t.output = [.written 0x41] ∧ t.pc = 0x3001) := by decide -- V48
theorem test_trap_putsp_unpacks : nextIs (step (withCell (withCell (placed 0x3000 0xF024 { zeros with r0 := 0x4000 } 2)
    0x4000 0x6948) 0x4001 0x0021)) (fun t => t.output = [.written 0x48, .written 0x69, .written 0x21]) := by decide -- V51
theorem test_trap_putsp_zero_low_byte : nextIs (step (withCell (placed 0x3000 0xF024 { zeros with r0 := 0x4000 } 2)
    0x4000 0x4100)) (fun t => t.output = [.written 0x00, .written 0x41]) := by decide -- V52
theorem test_trap_halt : nextIs (step (placed 0x3005 0xF025 zeros 2)) (fun t =>
    t.run = .halted ∧ t.pc = 0x3006 ∧ t.output = [.written 0x48] ∧ faultIs (step t) .halted) := by decide -- V53, W9
theorem test_trap_unknown_vector : nextIs (step (placed 0x3000 0xF026 zeros 2)) (fun t =>
      t = { placed 0x3000 0xF026 zeros 2 with pc := 0x3001 }) ∧
    nextIs (step { placed 0x3000 0xF026 zeros 2 with params := { idle.params with unknownTrap := .fault } }) (fun t =>
      t.run = .faulted (.unknownTrap 0x26 0x3000) ∧ t.pc = 0x3001) := by decide -- V54, V55
/-- `n` cells from `first` on, all 0x0041. -/
def letters : Nat → Nat → Memory
  | _, 0 => []
  | first, n + 1 => (first, 0x41) :: letters (first + 1) n

theorem peek_letters (first n a : Nat) (lo : first ≤ a) (hi : a < first + n) : (letters first n).peek a = 0x41 := by
  induction n generalizing first with
  | zero => omega
  | succ n ih =>
    unfold letters Memory.peek
    split
    · rfl
    · exact ih (first + 1) (by omega) (by omega)

/-- No zero cell anywhere, and a host that supplies characters without end. -/
def crowded : State := { idle with mem := letters 0 65536, keyboard := ⟨[], .endless 0⟩ }

theorem crowded_never_zero : NoZeroToCome crowded := by
  refine ⟨⟨0, rfl⟩, fun b _ => ?_⟩
  have letter : crowded.cell b = 0x41 := peek_letters 0 65536 b.toNat (Nat.zero_le _) (by have := b.isLt; omega)
  rw [letter]
  decide

theorem test_trap_scans_hang : exec (.trap 0x22) crowded = .fault .scanHang ∧
    exec (.trap 0x24) crowded = .fault .scanHang := by -- R117, I9
  constructor
  · show serviceScan putsChars crowded = _
    rw [serviceScan, crowded_never_zero.scan]
  · show serviceScan putspChars crowded = _
    rw [serviceScan, crowded_never_zero.scan]
theorem test_bursts_settle : (Burst.paused [0x61] 2 0x62).settle 6 = ⟨[⟨0, 0x61⟩, ⟨2, 0x62⟩], .drawn 7⟩ ∧
    (Burst.paused [] 0 0x62).settle 0 = ⟨[⟨0, 0⟩], .drawn 1⟩ ∧
    (Burst.final [0x61]).settle 0 = ⟨[⟨0, 0x61⟩], .silent⟩ := by decide -- R9
theorem test_trap_waits : faultIs (step (placed 0x3000 0xF020 zeros 2)) .awaitingHost := by decide -- R123
theorem test_reserved8 : nextIs (step (placed 0x3000 0x8000 zeros 2)) (fun t =>
    t.run = .faulted (.invalidOpcode 8 0x3000) ∧ t.pc = 0x3001) := by decide -- V57
theorem test_reserved13_at_the_top : nextIs (step (placed 0xFFFF 0xD000 zeros 2)) (fun t =>
    t.run = .faulted (.invalidOpcode 13 0xFFFF) ∧ t.pc = 0 ∧ faultIs (step t) .faulted) := by decide -- V59

/-! ### Loader and reset -/

theorem test_loader_big_endian : loadImage [0x30, 0x00, 0x12, 0x34, 0x56, 0x78] = [(0x3000, 0x1234), (0x3001, 0x5678)] := by
  decide -- V61
theorem test_loader_stops_at_the_top : loadImage [0xFF, 0xFF, 0x11, 0x11, 0x22, 0x22] = [(0xFFFF, 0x1111)] := by decide -- V62
theorem test_loader_odd_byte : loadImage [0x30, 0x00, 0x12] = [] ∧ loadImage [] = [] ∧ loadImage [0x30] = [] := by
  decide -- V63, V64, V65
theorem test_reset_runs_a_placed_word : nextIs (step (State.reset.withFetchWord 16 0x1225)) (fun t =>
    t.reg .r1 = 5 ∧ t.pc = 0x3001) := by decide

/-! ### Witnesses: the hypotheses of each obligation can be met -/

theorem witness_DecodeOfEncodeIsIdentity : (Instr.addImm .r7 .r0 31).wellFormed = true := by decide
theorem witness_EncodeOfDecodeKeepsNamedBits : (⟨.not, 0xF000, 0x9000, 0xFFC0⟩ : Row) ∈ opcodeTable ∧
    Form.not = (decode 0x9FFF).form := by decide
theorem witness_FormDependsOnOpcodeAndModeBits : (0x1021 : Word) &&& 0xF000 = 0x103F &&& 0xF000 ∧
    (0x1021 : Word).getLsbD 5 = (0x103F : Word).getLsbD 5 ∧ (0x4FFF : Word) &&& 0xF000 = 0x4800 &&& 0xF000 ∧
    (0x4FFF : Word).getLsbD 11 = (0x4800 : Word).getLsbD 11 := by decide
theorem witness_IgnoredBitsChangeNothing : (0x1058 : Word) &&& 0xF020 = 0x1000 ∧ (0x5283 : Word) &&& 0xF020 = 0x5000 ∧
    (0x903F : Word) &&& 0xF000 = 0x9000 ∧ (0xCE3F : Word) &&& 0xF000 = 0xC000 ∧ (0x46C0 : Word) &&& 0xF800 = 0x4000 ∧
    (0xFF20 : Word) &&& 0xF000 = 0xF000 := by decide
theorem witness_StepRunsTheDecodedInstruction : idle.run = .running := by decide
theorem witness_NoStepInTerminalStates : ({ idle with run := .halted } : State).run = .halted ∧
    ({ idle with run := .faulted (.invalidOpcode 13 0xFFFF) } : State).run = .faulted (.invalidOpcode 13 0xFFFF) := by decide
theorem witness_OnlyHaltAndFaultsEndARun : nextIs (step (placed 0x3000 0x0000 zeros 2)) (fun t => t.run = .running) ∧
    nextIs (step (placed 0x3000 0xF025 zeros 2)) (fun t => t.run = .halted) ∧
    nextIs (step (placed 0x3000 0x8FFF zeros 2)) (fun t => t.run = .faulted (.invalidOpcode 8 0x3000)) ∧
    nextIs (step (placed 0x3000 0xDFFF zeros 2)) (fun t => t.run = .faulted (.invalidOpcode 13 0x3000)) ∧
    nextIs (step { placed 0x3000 0xF01F zeros 2 with params := { idle.params with unknownTrap := .fault } })
      (fun t => t.run = .faulted (.unknownTrap 0x1F 0x3000)) := by decide
theorem witness_LoaderIgnoresPartialWords : ([0x30] : List Byte).length < 2 ∧
    ([0x30, 0x00, 0x12, 0x34] : List Byte).length % 2 = 0 := by decide
theorem witness_SignExtension : (0x10 : BitVec 5).getLsbD 4 = true ∧ sext (0x10 : BitVec 5) = 0xFFF0 ∧
    (0x0F : BitVec 5).getLsbD 4 = false ∧ sext (0x0F : BitVec 5) = 0x000F ∧ sext (1 : BitVec 1) = 0xFFFF ∧
    sext (0x4000 : BitVec 15) = 0xC000 := by decide
theorem witness_ConditionCodeGenerator : condOf 0x0000 = 0b010 ∧ condOf 0x8000 = 0b100 ∧ condOf 0x7FFF = 0b001 ∧
    condOf 0x0001 = 0b001 ∧ condOf 0xFFFF = 0b100 := by decide
theorem witness_words_of_the_operate_instructions : (0x1283 : Word) &&& 0xF020 = 0x1000 ∧
    (0x1225 : Word) &&& 0xF020 = 0x1020 ∧ (0x5283 : Word) &&& 0xF020 = 0x5000 ∧ (0x592F : Word) &&& 0xF020 = 0x5020 ∧
    (0x92BF : Word) &&& 0xF000 = 0x9000 := by decide
theorem witness_AddImmediateMode : ({ idle with gpr := { zeros with r2 := 0xFFF0 } } : State).reg .r2 =
    sext (0b10000 : BitVec 5) := by decide
theorem witness_AndImmediateMode : (15 : BitVec 5).toNat < 16 := by decide
theorem witness_words_of_the_control_transfers : (0x0E01 : Word) &&& 0xF000 = 0x0000 ∧ (0xC1C0 : Word) &&& 0xF000 = 0xC000 ∧
    (0x4805 : Word) &&& 0xF800 = 0x4800 ∧ (0x40C0 : Word) &&& 0xF800 = 0x4000 := by decide
theorem witness_words_of_the_loads_and_stores : (0x2203 : Word) &&& 0xF000 = 0x2000 ∧ (0xA401 : Word) &&& 0xF000 = 0xA000 ∧
    (0x673E : Word) &&& 0xF000 = 0x6000 ∧ (0xE1FF : Word) &&& 0xF000 = 0xE000 ∧ (0x3202 : Word) &&& 0xF000 = 0x3000 ∧
    (0xB202 : Word) &&& 0xF000 = 0xB000 ∧ (0x7285 : Word) &&& 0xF000 = 0x7000 := by decide
theorem witness_LoadPcRelative : ({ idle with pc := 0xFDFF } : State).pc + sext (0 : BitVec 9) ≠ kbsr := by decide
theorem witness_LoadIndirect : idle.pc + sext (0x1FF : BitVec 9) ≠ kbsr ∧
    idle.cell (idle.pc + sext (0x1FF : BitVec 9)) ≠ kbsr := by decide
theorem witness_LoadBaseOffset : idle.reg .r0 + sext (0x20 : BitVec 6) ≠ kbsr := by decide
theorem witness_StoreIndirect : idle.pc + sext (0x100 : BitVec 9) ≠ kbsr := by decide
theorem witness_PlainReadChangesNothing : (0xFE01 : Word) ≠ kbsr ∧ (0xFE02 : Word) ≠ kbsr ∧ (0xFDFF : Word) ≠ kbsr := by
  decide
theorem witness_StatusReadPolls : (withKey idle 0x61).keyboard.poll = (⟨[], .silent⟩, some 0x61) ∧
    idle.keyboard.poll = (⟨[], .silent⟩, none) ∧
    Keyboard.poll ⟨[⟨1, 0x61⟩], .drawn 0⟩ = (⟨[⟨0, 0x61⟩], .drawn 0⟩, none) := by decide
theorem witness_PollAndBlockingReadAgree : Keyboard.poll ⟨[⟨0, 0x61⟩], .silent⟩ = (⟨[], .silent⟩, some 0x61) ∧
    Keyboard.poll ⟨[], .endless 4⟩ = (⟨[], .endless 5⟩, some (nonNul (Config.hostTyped 4))) ∧
    Keyboard.poll ⟨[⟨2, 0x61⟩], .silent⟩ = (⟨[⟨1, 0x61⟩], .silent⟩, none) := ⟨by decide, rfl, by decide⟩
theorem witness_StoreIsSeenByTheNextFetch : (placed 0xFDFE 0x3400 zeros 2).run = .running ∧
    (placed 0xFDFE 0x3400 zeros 2).pc ≠ kbsr ∧ (placed 0xFDFE 0x3400 zeros 2).pc + 1 ≠ kbsr ∧
    decode ((placed 0xFDFE 0x3400 zeros 2).cell 0xFDFE) = .st .r2 0 := by decide
theorem witness_StepKeepsMemoryCanonical : (placed 0x3000 0x3202 zeros 2).mem.wf = true ∧
    nextIs (step (placed 0x3000 0x3202 zeros 2)) (fun _ => true) := by decide
theorem witness_StepKeepsExactlyOneFlag : OneFlag (placed 0x3000 0x1021 zeros 2).cond ∧
    nextIs (step (placed 0x3000 0x1021 zeros 2)) (fun t => t.cond = 0b001) ∧
    nextIs (exec (.lea .r0 0) { idle with cond := 0b111 }) (fun t => t.cond = 0b001) ∧
    Form.lea ∈ [Form.addReg, .addImm, .andReg, .andImm, .not, .ld, .ldi, .ldr, .lea] := by
  refine ⟨.inr (.inl rfl), ?_, ?_, ?_⟩ <;> decide
/-- One instruction of each kind answers a next state: the hypothesis of the statements about every instruction. -/
theorem witness_exec_answers_next_states : nextIs (exec (.addImm .r1 .r1 31) idle) (fun t => t.cond = 0b100) ∧
    nextIs (exec (.addImm .r1 .r1 31) (idle.withCond 0b111)) (fun t => t.reg .r1 = 0xFFFF) ∧
    nextIs (exec (.br 0b010 5) idle) (fun t => t.pc = 0x3005) ∧ nextIs (exec (.jsrr .r7) idle) (fun t => t.pc = 0x3000) ∧
    nextIs (exec (.sti .r0 0) idle) (fun t => t.pc = 0x3000) ∧ nextIs (exec (.trap 0x21) idle) (fun t => t.cond = 0b010) ∧
    (Instr.trap 0x21).form ≠ .br := by decide
theorem witness_OutputOnlyGrows : nextIs (step (placed 0x3000 0xF021 zeros 2)) (fun t => t.output = [.written 0]) ∧
    nextIs (step (placed 0x3000 0x1021 zeros 2)) (fun t => t.output = []) ∧
    (decode (memRead (placed 0x3000 0x1021 zeros 2) 0x3000).1).form ≠ .trap := by decide
theorem witness_GetcReadsOneCharacter : (withKey idle 0x41).keyboard.read = some (0x41, ⟨[], .silent⟩) := by decide
theorem witness_BlockingReadsWaitForTheHost : idle.keyboard.read = none := by decide
theorem witness_InPromptsAndEchoes : Keyboard.read ⟨[⟨7, 0x7A⟩], .silent⟩ = some (0x7A, ⟨[], .silent⟩) := by decide

/-- Two nonzero cells below 0xFE00, then a zero cell at 0xFDFF. -/
def packedAt : State := withCell (withCell { idle with gpr := { zeros with r0 := 0xFDFD } } 0xFDFD 0x6948) 0xFDFE 0x0021

theorem witness_PutsWritesTheString : (∀ k < 2, packedAt.reg .r0 + BitVec.ofNat 16 k ≠ kbsr ∧
      packedAt.cell (packedAt.reg .r0 + BitVec.ofNat 16 k) ≠ 0) ∧
    packedAt.reg .r0 + BitVec.ofNat 16 2 ≠ kbsr ∧ packedAt.cell (packedAt.reg .r0 + BitVec.ofNat 16 2) = 0 := by decide
theorem witness_PutspWritesThePackedString : idle.reg .r0 + BitVec.ofNat 16 0 ≠ kbsr ∧
    idle.cell (idle.reg .r0 + BitVec.ofNat 16 0) = 0 ∧ packedAt.cell 0xFDFD ≠ 0 ∧ packedAt.cell 0xFDFF = 0 := by decide
theorem witness_ScanOfUnreadyStatusCellEnds : ({ idle with gpr := { zeros with r0 := 0xFE00 } } : State).reg .r0 = kbsr ∧
    ({ idle with gpr := { zeros with r0 := 0xFE00 } } : State).keyboard.poll = (⟨[], .silent⟩, none) := by decide
theorem witness_UnknownVector : (0x1F : BitVec 8).toNat < 0x20 ∧ 0x25 < (0x26 : BitVec 8).toNat ∧ 0x25 < (0xFF : BitVec 8).toNat ∧
    ¬ (0x20 : BitVec 8).toNat < 0x20 ∧ ¬ 0x25 < (0x25 : BitVec 8).toNat := by decide
theorem witness_InvalidOpcodeFaults : (placed 0xFFFF 0x8000 zeros 2).run = .running ∧
    (memRead (placed 0xFFFF 0x8000 zeros 2) 0xFFFF).1 = 0x8000 ∧ (0x8000 : Word).extractLsb' 12 4 = 8 ∧
    (memRead (placed 0xFFFF 0xDFFF zeros 2) 0xFFFF).1 = 0xDFFF ∧ (0xDFFF : Word).extractLsb' 12 4 = 13 := by decide

end Sys2Proof.Tests
end

/-! PROOFS. The sign extender (00_scope.md R12). -/

namespace Sys2Proof.Machine

/-- A clear top bit: the value, its upper bits zero. -/
theorem sext_of_msb_false {n : Nat} {v : BitVec n} (h : v.msb = false) : sext v = v.setWidth 16 :=
  BitVec.signExtend_eq_setWidth_of_msb_false h

/-- A set top bit: the mask `0xFFFF << n` sets bits `n` to 15 and keeps the value's own bits. -/
theorem sext_of_msb_true {n : Nat} {v : BitVec n} (h : v.msb = true) :
    sext v = v.setWidth 16 ||| (0xFFFF#16 <<< n) := by
  have ones (k : Nat) (hk : k < 16) : (0xFFFF#16)[k] = true := BitVec.getElem_allOnes k hk
  ext i hi
  by_cases inField : i < n
  · simp [sext, BitVec.getElem_signExtend, inField]
  · simp [sext, BitVec.getElem_signExtend, inField, h, ones]

/-- From a width of at most 16, sign extension keeps the signed value. -/
theorem toInt_sext {n : Nat} (h : n ≤ 16) (v : BitVec n) : (sext v).toInt = v.toInt :=
  BitVec.toInt_signExtend_of_le h

/-- At width 16 the sign extender is the identity. -/
theorem sext_word (v : Word) : sext v = v := BitVec.signExtend_eq v

/-- The bit form of R12. -/
theorem sext_bits {n : Nat} (v : BitVec n) :
    sext v = if v.msb then (v.setWidth 16 ||| (0xFFFF#16 <<< n)) &&& 0xFFFF#16 else v.setWidth 16 := by
  have keepAll (w : Word) : w &&& 0xFFFF#16 = w := BitVec.and_allOnes
  cases top : v.msb with
  | false => simpa using sext_of_msb_false top
  | true => simpa [keepAll] using sext_of_msb_true top

/-- Settles O17: the bit form by the two values of the top bit, the numeric form because the signed value is kept. -/
theorem signExtension : Obligations.SignExtension := by
  refine ⟨fun n _ narrow v => ?_, sext_word⟩
  rw [← BitVec.msb_eq_getLsbD_last]
  refine ⟨sext_bits v, ?_⟩
  rw [toInt_sext narrow.le, BitVec.toInt_eq_msb_cond]
  simp

end Sys2Proof.Machine

/-! PROOFS. COND (10_state.md R26, R27): a flag-updating instruction overwrites it, BR branches on it, and every other
instruction carries it through unread. -/

namespace Sys2Proof

/-- The register that a flag-updating instruction writes its result to (R90); no other instruction has one. -/
def Instr.resultReg : Instr → Option Reg
  | .addReg dr _ _ | .addImm dr _ _ | .andReg dr _ _ | .andImm dr _ _ | .not dr _ | .ld dr _ | .ldi dr _ | .ldr dr _ _
  | .lea dr _ => some dr
  | .br _ _ | .jmp _ | .jsr _ | .jsrr _ | .st _ _ | .sti _ _ | .str _ _ _ | .trap _ | .reserved8 | .reserved13 => none

end Sys2Proof

namespace Sys2Proof.Machine

/-! ### Each operation on the state with another COND -/

section WithCond

variable (s : State) (c : BitVec 3)

@[simp] theorem withCond_pc : (s.withCond c).pc = s.pc := rfl
@[simp] theorem withCond_cond : (s.withCond c).cond = c := rfl
@[simp] theorem withCond_keyboard : (s.withCond c).keyboard = s.keyboard := rfl
@[simp] theorem withCond_params : (s.withCond c).params = s.params := rfl
@[simp] theorem withCond_reg (r : Reg) : (s.withCond c).reg r = s.reg r := rfl
@[simp] theorem withCond_cell (a : Word) : (s.withCond c).cell a = s.cell a := rfl
@[simp] theorem withCond_self : s.withCond s.cond = s := rfl

@[simp] theorem memWrite_withCond (a v : Word) : memWrite (s.withCond c) a v = (memWrite s a v).withCond c := rfl
@[simp] theorem write_withCond (cs : List Word) : (s.withCond c).write cs = (s.write cs).withCond c := rfl
@[simp] theorem setKeyboard_withCond (k : Keyboard) : (s.withCond c).setKeyboard k = (s.setKeyboard k).withCond c := rfl

/-- A result overwrites COND, so the old one leaves no trace. -/
@[simp] theorem writeResult_withCond (r : Reg) (v : Word) : writeResult (s.withCond c) r v = writeResult s r v := rfl

@[simp] theorem readEffect_withCond (a : Word) : readEffect (s.withCond c) a = (readEffect s a).withCond c := by
  unfold readEffect
  split
  · obtain ⟨k, b, poll, h⟩ | ⟨k, poll, h⟩ := pollKeyboard_cases s <;> rw [h] <;> simp [pollKeyboard, poll]
  · rfl

@[simp] theorem trapLink_withCond : trapLink (s.withCond c) = (trapLink s).withCond c :=
  (apply_ite (fun u : State => u.withCond c) (s.params.trapLinksR7 = true) (linkR7 s) s).symm

theorem readChar_withCond :
    readChar (s.withCond c) = (readChar s).map fun (b, t) => (b, t.withCond c) := by
  obtain ⟨b, k, rd, h⟩ | ⟨rd, h⟩ := readChar_cases s <;> rw [h] <;> simp [readChar, rd]

theorem scan_withCond (chars : Word → List Word) (n : Nat) (a : Word) :
    scan chars n a (s.withCond c) = (scan chars n a s).map (·.withCond c) := by
  induction n generalizing a s with
  | zero => rfl
  | succ n ih =>
    by_cases z : (readEffect s a).cell a = 0
    · rw [scan_stop n z, scan_stop n (by simpa using z)]
      simp
    · rw [scan_go n z, scan_go n (by simpa using z), ← ih]
      simp

end WithCond

/-! ### What becomes of COND -/

/-- The same answer but for COND in the next state, if there is one. -/
def answerWithCond (c : BitVec 3) : Host.Outcome State Fault Refusal → Host.Outcome State Fault Refusal
  | .next t => .next (t.withCond c)
  | .fault r => .fault r
  | .refused r => .refused r

theorem serviceScan_withCond (chars : Word → List Word) (s : State) (c : BitVec 3) :
    serviceScan chars (s.withCond c) = answerWithCond c (serviceScan chars s) := by
  have fuel : scanFuel (s.withCond c) = scanFuel s := rfl
  simp only [serviceScan, fuel, withCond_reg, scan_withCond]
  cases scan chars (scanFuel s) (s.reg .r0) s <;> rfl

theorem serviceGetc_withCond (s : State) (c : BitVec 3) :
    serviceGetc (s.withCond c) = answerWithCond c (serviceGetc s) := by
  simp only [serviceGetc, readChar_withCond]
  cases readChar s <;> rfl

theorem serviceIn_withCond (s : State) (c : BitVec 3) :
    serviceIn (s.withCond c) = answerWithCond c (serviceIn s) := by
  simp only [serviceIn, withCond_params, write_withCond, readChar_withCond]
  cases readChar (s.write s.params.inPrompt) <;> rfl

theorem serviceUnknown_withCond (v : BitVec 8) (s : State) (c : BitVec 3) :
    serviceUnknown v (s.withCond c) = answerWithCond c (serviceUnknown v s) := by
  simp only [serviceUnknown, withCond_params]
  cases s.params.unknownTrap <;> rfl

/-- A TRAP carries COND through, whatever its service. -/
theorem execTrap_withCond (v : BitVec 8) (s : State) (c : BitVec 3) :
    execTrap v (s.withCond c) = answerWithCond c (execTrap v s) := by
  simp only [execTrap, trapLink_withCond]
  cases serviceOf v with
  | getc => exact serviceGetc_withCond _ c
  | puts | putsp => exact serviceScan_withCond _ _ c
  | inChar => exact serviceIn_withCond _ c
  | unknown => exact serviceUnknown_withCond v _ c
  | out | halt => rfl

theorem execJsrr_withCond (baseR : Reg) (s : State) (c : BitVec 3) :
    execJsrr baseR (s.withCond c) = answerWithCond c (execJsrr baseR s) := by
  simp only [execJsrr, withCond_params]
  cases s.params.jsrrOrder <;> rfl

/-- A flag-updating instruction ends by writing its result, and neither the result nor anything else depends on COND. -/
theorem exec_of_resultReg {i : Instr} {dr : Reg} (h : i.resultReg = some dr) (s : State) :
    (∃ u v, exec i s = .next (writeResult u dr v)) ∧ ∀ c, exec i (s.withCond c) = exec i s := by
  cases i with
  | addReg | addImm | andReg | andImm | not | lea => cases h; exact ⟨⟨s, _, rfl⟩, fun _ => rfl⟩
  | ld | ldr =>
    cases h
    refine ⟨⟨readEffect s _, _, rfl⟩, fun c => ?_⟩
    simp [exec, execLd, execLdr, loadFrom, pcRelative, baseOffset]
  | ldi =>
    cases h
    refine ⟨⟨readEffect (readEffect s _) _, _, rfl⟩, fun c => ?_⟩
    simp [exec, execLdi, loadFrom, pcRelative]
  | _ => cases h

/-- An instruction without a result, BR apart, carries COND through unread. -/
theorem exec_withCond {i : Instr} (noResult : i.resultReg = none) (notBr : i.form ≠ .br) (s : State) (c : BitVec 3) :
    exec i (s.withCond c) = answerWithCond c (exec i s) := by
  cases i with
  | br => exact absurd rfl notBr
  | jsrr baseR => exact execJsrr_withCond baseR s c
  | trap v => exact execTrap_withCond v s c
  | sti => simp [exec, execSti, pcRelative, answerWithCond]
  | jmp | jsr | st | str | reserved8 | reserved13 => rfl
  | _ => cases noResult

/-- The flags are those of what DR holds afterwards (R26, R90). -/
theorem cond_of_resultReg {i : Instr} {dr : Reg} (h : i.resultReg = some dr) {s t : State}
    (e : exec i s = .next t) : t.cond = condOf (t.reg dr) := by
  obtain ⟨⟨u, v, r⟩, -⟩ := exec_of_resultReg h s
  cases e.symm.trans r
  simp

/-- Carried through is kept: take COND's own value for the new one in `exec_withCond`. -/
theorem cond_kept {i : Instr} (noResult : i.resultReg = none) (notBr : i.form ≠ .br) {s t : State}
    (e : exec i s = .next t) : t.cond = s.cond := by
  have carried := exec_withCond noResult notBr s s.cond
  rw [withCond_self, e] at carried
  injection carried with same
  rw [same, withCond_cond]

/-- Settles O45: a flag-updating instruction answers the same, and any other carries the new COND through. -/
theorem condReadOnlyByBranch : Obligations.CondReadOnlyByBranch := by
  intro i s t c notBr e
  cases h : i.resultReg with
  | some dr => exact ⟨t.cond, ((exec_of_resultReg h s).2 c).trans e⟩
  | none => exact ⟨c, by rw [exec_withCond h notBr, e]; rfl⟩

/-- BR writes PC at most. -/
theorem execBr_next {mask : BitVec 3} {off9 : BitVec 9} {s t : State} (e : exec (.br mask off9) s = .next t) :
    t.gpr = s.gpr ∧ t.cond = s.cond := by
  cases e
  split <;> exact ⟨rfl, rfl⟩

/-- No instruction brings COND into a register (R26): BR writes none, and any other does the same to everything but COND. -/
theorem gpr_independent_of_cond {i : Instr} {s t u : State} {c : BitVec 3} (e : exec i s = .next t)
    (e' : exec i (s.withCond c) = .next u) : u.gpr = t.gpr := by
  by_cases br : i.form = .br
  · cases i with
    | br mask off9 => exact (execBr_next e').1.trans (execBr_next e).1.symm
    | _ => cases br
  · obtain ⟨d, r⟩ := condReadOnlyByBranch i s t c br e
    cases e'.symm.trans r
    rfl

/-- Settles O44: the flags of a result are those of the value written, and COND is carried through by the others. -/
theorem condWrittenOnlyByFlagUpdaters : Obligations.CondWrittenOnlyByFlagUpdaters := by
  intro i s t e
  refine ⟨?_, fun c u e' => gpr_independent_of_cond e e'⟩
  cases i with
  | addReg | addImm | andReg | andImm | not | ld | ldi | ldr | lea => exact cond_of_resultReg rfl e
  | br => exact (execBr_next e).2
  | _ => exact cond_kept rfl (by simp [Instr.form]) e

end Sys2Proof.Machine

/-! PROOFS. Memory reads and writes (20_memory.md R48, R50). -/

namespace Sys2Proof.Machine

/-- Settles O36: a read polls the keyboard at 0xFE00 only. -/
theorem plainReadChangesNothing : Obligations.PlainReadChangesNothing := fun s _ notStatus =>
  memRead_plain s notStatus

/-- The cell written holds the value. -/
theorem memWrite_cell_self (s : State) (a v : Word) : (memWrite s a v).cell a = v := by
  rw [memWrite_cell, if_pos rfl]

/-- Every cell but the one written is kept. -/
theorem memWrite_memKept (s : State) (a v : Word) : MemKept [a] s (memWrite s a v) := by
  intro b other
  rw [memWrite_cell, if_neg (List.ne_of_not_mem_cons other)]

/-- The frame of a write: memory is the only part of the state it touches, and there only the one cell. -/
theorem memWrite_onlyStore (s : State) (a v : Word) : OnlyStore a s (memWrite s a v) :=
  ⟨fun q _ => memWrite_reg s a v q, memWrite_pc s a v, memWrite_cond s a v, memWrite_memKept s a v,
    ⟨memWrite_keyboard s a v, memWrite_output s a v⟩, memWrite_run s a v, memWrite_params s a v⟩

/-- Settles O37: the read back is plain away from 0xFE00, so it returns the cell just written. -/
theorem writeStoresAndNothingElse : Obligations.WriteStoresAndNothingElse := by
  intro s a v
  refine ⟨memWrite_cell_self s a v, memWrite_onlyStore s a v, fun notStatus => ?_⟩
  rw [memRead_plain _ notStatus]
  exact memWrite_cell_self s a v

end Sys2Proof.Machine

/-! PROOFS. What the decoder examines of a word (30_encoding.md R66, R75). -/

namespace Sys2Proof

/-- Wherever the mask examines a word, its bits are the pattern's. -/
theorem getLsbD_of_masked {w mask pattern : Word} (h : w &&& mask = pattern) {k : Nat}
    (examined : mask.getLsbD k = true) : w.getLsbD k = pattern.getLsbD k := by
  rw [← h, BitVec.getLsbD_and, examined, Bool.and_true]

/-- The opcode at its place, from the four bits the decoder reads it from (R66). -/
theorem opcode_of_bits (w : Word) : w &&& 0xF000 =
    place (BitVec.ofBoolListBE [w.getLsbD 15, w.getLsbD 14, w.getLsbD 13, w.getLsbD 12]) 12 := by
  refine BitVec.eq_of_getLsbD_eq fun k h => ?_
  interval_cases k <;> simp [place_getLsbD, BitVec.ofBoolListBE, BitVec.getLsbD_cons, -BitVec.getLsbD_eq_getElem]

/-- Settles O4: both words take the same branch of the opcode map, and only the branches of ADD, AND and opcode 4 examine one
more bit, in which the words agree there. -/
theorem formDependsOnOpcodeAndModeBits : Obligations.FormDependsOnOpcodeAndModeBits := by
  intro v w same mode long
  have bit (k : Nat) (examined : (0xF000 : Word).getLsbD k = true) : v.getLsbD k = w.getLsbD k :=
    (getLsbD_of_masked same examined).trans (getLsbD_of_masked rfl examined).symm
  rw [opcode_of_bits w] at mode long
  unfold decode
  rw [bit 15 rfl, bit 14 rfl, bit 13 rfl, bit 12 rfl]
  generalize w.getLsbD 15 = b15, w.getLsbD 14 = b14, w.getLsbD 13 = b13, w.getLsbD 12 = b12 at mode long ⊢
  cases b15 <;> cases b14 <;> cases b13 <;> cases b12
  case false.false.false.true | false.true.false.true => -- ADD, AND
    rw [mode (by decide)]
    cases w.getLsbD 5 <;> rfl
  case false.true.false.false => -- JSR, JSRR
    rw [long (by decide)]
    cases w.getLsbD 11 <;> rfl
  all_goals rfl

end Sys2Proof

/-! PROOFS. The rows of the opcode table (30_encoding.md R65, R66): a word that belongs to a row is the row's instruction, its
operands the named fields of the word. -/

namespace Sys2Proof

/-- The instruction of a row, its operands read from the word's fields (R65). -/
def Form.read (w : Word) : Form → Instr
  | .addReg => .addReg (regAt9 w) (regAt6 w) (regAt0 w)
  | .addImm => .addImm (regAt9 w) (regAt6 w) (field w 0 5)
  | .andReg => .andReg (regAt9 w) (regAt6 w) (regAt0 w)
  | .andImm => .andImm (regAt9 w) (regAt6 w) (field w 0 5)
  | .not => .not (regAt9 w) (regAt6 w)
  | .br => .br (field w 9 3) (field w 0 9)
  | .jmp => .jmp (regAt6 w)
  | .jsr => .jsr (field w 0 11)
  | .jsrr => .jsrr (regAt6 w)
  | .ld => .ld (regAt9 w) (field w 0 9)
  | .ldi => .ldi (regAt9 w) (field w 0 9)
  | .ldr => .ldr (regAt9 w) (regAt6 w) (field w 0 6)
  | .lea => .lea (regAt9 w) (field w 0 9)
  | .st => .st (regAt9 w) (field w 0 9)
  | .sti => .sti (regAt9 w) (field w 0 9)
  | .str => .str (regAt9 w) (regAt6 w) (field w 0 6)
  | .trap => .trap (field w 0 8)
  | .reserved8 => .reserved8
  | .reserved13 => .reserved13

/-- What the decoder reads is determined by the form it finds: in each of its branches the operands are that form's fields. -/
theorem decode_eq_read (w : Word) : decode w = (decode w).form.read w := by
  fun_cases decode w <;> rfl

/-- Every row examines the opcode, and the mode bit of ADD and AND and the long flag of opcode 4 besides (R66 to R68). -/
theorem mask_of_row {r : Row} (mem : r ∈ opcodeTable) : r.mask &&& 0xF000 = 0xF000 ∧
    (r.pattern &&& 0xF000 = 0x1000 ∨ r.pattern &&& 0xF000 = 0x5000 → r.mask.getLsbD 5 = true) ∧
    (r.pattern &&& 0xF000 = 0x4000 → r.mask.getLsbD 11 = true) := by
  revert r
  decide

/-- The decoder gives each row's pattern the row's form. -/
theorem form_of_pattern {r : Row} (mem : r ∈ opcodeTable) : (decode r.pattern).form = r.form := by
  revert r
  decide

/-- A word of a row has the row's form: by R75 it has the form of the row's own pattern. -/
theorem form_of_row {w : Word} {r : Row} (mem : r ∈ opcodeTable) (h : w &&& r.mask = r.pattern) :
    (decode w).form = r.form := by
  obtain ⟨opcode, mode, long⟩ := mask_of_row mem
  have sameOpcode : w &&& 0xF000 = r.pattern &&& 0xF000 := by rw [← h, BitVec.and_assoc, opcode]
  calc (decode w).form
    _ = (decode r.pattern).form := formDependsOnOpcodeAndModeBits w r.pattern sameOpcode
      (fun addOrAnd => getLsbD_of_masked h (mode addOrAnd)) (fun call => getLsbD_of_masked h (long call))
    _ = r.form := form_of_pattern mem

/-- A word of a row decodes to the row's instruction, with the operands of its fields. -/
theorem decode_of_row {w : Word} {r : Row} (mem : r ∈ opcodeTable) (h : w &&& r.mask = r.pattern) :
    decode w = r.form.read w := by
  rw [decode_eq_read, form_of_row mem h]

end Sys2Proof

/-! PROOFS. The operate instructions (40_alu_operate.md R92 to R96). -/

namespace Sys2Proof.Machine

/-! ### The result write (R90) -/

/-- The frame of a result: nothing is written but the destination and COND. -/
theorem writeResult_onlyResult (s : State) (dr : Reg) (v : Word) : OnlyResult dr s (writeResult s dr v) := by
  refine ⟨fun q other => ?_, writeResult_pc s dr v, fun a _ => writeResult_cell s dr v a,
    ⟨writeResult_keyboard s dr v, writeResult_output s dr v⟩, writeResult_run s dr v, writeResult_params s dr v⟩
  rw [writeResult_reg, if_neg (List.ne_of_not_mem_cons other)]

/-- An instruction that only writes a result completes, with the value in its destination, the value's flags and nothing
else changed. -/
theorem completes_of_exec_eq_writeResult {i : Instr} {s : State} {dr : Reg} {v : Word}
    (e : exec i s = .next (writeResult s dr v)) :
    ∃ t, exec i s = .next t ∧ t.reg dr = v ∧ t.cond = condOf v ∧ OnlyResult dr s t := by
  refine ⟨writeResult s dr v, e, ?_, writeResult_cond s dr v, writeResult_onlyResult s dr v⟩
  rw [writeResult_reg, if_pos rfl]

/-! ### The value each operate instruction writes -/

section Values

variable (dr sr1 sr2 : Reg) (imm5 : BitVec 5) (s : State)

theorem exec_addReg : exec (.addReg dr sr1 sr2) s = .next (writeResult s dr (s.reg sr1 + s.reg sr2)) := rfl

theorem exec_addImm : exec (.addImm dr sr1 imm5) s = .next (writeResult s dr (s.reg sr1 + sext imm5)) := rfl

theorem exec_andReg : exec (.andReg dr sr1 sr2) s = .next (writeResult s dr (s.reg sr1 &&& s.reg sr2)) := rfl

theorem exec_andImm : exec (.andImm dr sr1 imm5) s = .next (writeResult s dr (s.reg sr1 &&& sext imm5)) := rfl

theorem exec_not : exec (.not dr sr1) s = .next (writeResult s dr (~~~(s.reg sr1))) := rfl

end Values

/-- Where the second register holds the extended immediate, ADD's two modes add the same operands (R93). -/
theorem exec_addReg_eq_addImm {s : State} {sr2 : Reg} {imm5 : BitVec 5} (same : s.reg sr2 = sext imm5) (dr sr1 : Reg) :
    exec (.addReg dr sr1 sr2) s = exec (.addImm dr sr1 imm5) s := by
  rw [exec_addReg, exec_addImm, same]

/-- Where the second register holds the extended immediate, AND's two modes meet the same operands (R93). -/
theorem exec_andReg_eq_andImm {s : State} {sr2 : Reg} {imm5 : BitVec 5} (same : s.reg sr2 = sext imm5) (dr sr1 : Reg) :
    exec (.andReg dr sr1 sr2) s = exec (.andImm dr sr1 imm5) s := by
  rw [exec_andReg, exec_andImm, same]

/-- Settles O20: the words are those of ADD's first row, and the sum is all that is written. -/
theorem addRegisterMode : Obligations.AddRegisterMode :=
  ⟨fun _ => decode_of_row (r := ⟨.addReg, 0xF020, 0x1000, 0xFFE7⟩) (by decide),
    fun dr sr1 sr2 s => completes_of_exec_eq_writeResult (exec_addReg dr sr1 sr2 s)⟩

/-- Settles O21: the words are those of ADD's second row, and the sum is all that is written; the modes agree because both
write the same value. -/
theorem addImmediateMode : Obligations.AddImmediateMode :=
  ⟨fun _ => decode_of_row (r := ⟨.addImm, 0xF020, 0x1020, 0xFFFF⟩) (by decide),
    fun dr sr1 imm5 s => completes_of_exec_eq_writeResult (exec_addImm dr sr1 imm5 s),
    fun dr sr1 _ _ _ same => ⟨exec_addReg_eq_addImm same dr sr1, exec_andReg_eq_andImm same dr sr1⟩⟩

/-- Settles O22: the words are those of AND's first row, and the conjunction is all that is written. -/
theorem andRegisterMode : Obligations.AndRegisterMode :=
  ⟨fun _ => decode_of_row (r := ⟨.andReg, 0xF020, 0x5000, 0xFFE7⟩) (by decide),
    fun dr sr1 sr2 s => completes_of_exec_eq_writeResult (exec_andReg dr sr1 sr2 s)⟩

/-- Settles O24: the words are those of NOT's row, bits 5:0 not examined, and the complement is all that is written. -/
theorem notComplements : Obligations.NotComplements :=
  ⟨fun _ => decode_of_row (r := ⟨.not, 0xF000, 0x9000, 0xFFC0⟩) (by decide),
    fun dr sr s => completes_of_exec_eq_writeResult (exec_not dr sr s)⟩

end Sys2Proof.Machine

/-! PROOFS. Control transfer: JMP and JSR (41_control.md R100, R101). -/

namespace Sys2Proof.Machine

/-! ### The frame of a write to PC and of the link -/

/-- The frame leaves PC free, so a new PC keeps it. -/
theorem OnlyPc.setPc {but : List Reg} {s u : State} (kept : OnlyPc but s u) (target : Word) :
    OnlyPc but s (u.setPc target) := kept

/-- The frame of a jump: PC is the only part of the state it writes. -/
theorem setPc_onlyPc (s : State) (target : Word) : OnlyPc [] s (s.setPc target) :=
  ⟨fun q _ => setPc_reg s target q, setPc_cond s target, fun a _ => setPc_cell s target a,
    ⟨setPc_keyboard s target, setPc_output s target⟩, setPc_run s target, setPc_params s target⟩

/-- The link holds the incremented PC (R104). -/
theorem linkR7_reg_r7 (s : State) : (linkR7 s).reg .r7 = s.pc := by
  rw [linkR7_reg, if_pos rfl]

/-- The link writes R7 and no other register. -/
theorem linkR7_onlyPc (s : State) : OnlyPc [.r7] s (linkR7 s) := by
  refine ⟨fun q other => ?_, linkR7_cond s, fun a _ => linkR7_cell s a,
    ⟨linkR7_keyboard s, linkR7_output s⟩, linkR7_run s, linkR7_params s⟩
  rw [linkR7_reg, if_neg (List.ne_of_not_mem_cons other)]

/-! ### The state each instruction leaves -/

theorem exec_jmp (baseR : Reg) (s : State) : exec (.jmp baseR) s = .next (s.setPc (s.reg baseR)) := rfl

theorem exec_jsr (off11 : BitVec 11) (s : State) :
    exec (.jsr off11) s = .next ((linkR7 s).setPc (s.pc + sext off11)) := rfl

/-- Settles O26: the words are those of JMP's row, and only PC is written. -/
theorem jumpToRegister : Obligations.JumpToRegister :=
  ⟨fun _ => decode_of_row (r := ⟨.jmp, 0xF000, 0xC000, 0xF1C0⟩) (by decide),
    fun baseR s => ⟨_, exec_jmp baseR s, setPc_pc s (s.reg baseR), setPc_onlyPc s (s.reg baseR)⟩⟩

/-- Settles O27: the words are those of JSR's row; the link writes R7, and then only PC is written. -/
theorem callPcRelative : Obligations.CallPcRelative := by
  refine ⟨fun _ => decode_of_row (r := ⟨.jsr, 0xF800, 0x4800, 0xFFFF⟩) (by decide), fun off11 s => ?_⟩
  have link : ((linkR7 s).setPc (s.pc + sext off11)).reg .r7 = s.pc := by rw [setPc_reg, linkR7_reg_r7]
  exact ⟨_, exec_jsr off11 s, link, setPc_pc _ _, (linkR7_onlyPc s).setPc _⟩

end Sys2Proof.Machine

/-! PROOFS. Loads (42_load_store.md R106 to R109): a read, which polls at 0xFE00, and then the result write. -/

namespace Sys2Proof.Machine

/-! ### The frame of a load -/

/-- A result write is a load whose read changed nothing. -/
theorem OnlyResult.onlyLoad {dr : Reg} {s t : State} (h : OnlyResult dr s t) : OnlyLoad dr s t := by
  obtain ⟨regs, pc, mem, ⟨-, output⟩, control⟩ := h
  exact ⟨regs, pc, fun a _ => mem a List.not_mem_nil, output, control⟩

/-- The frames of two loads into one register compose. -/
theorem OnlyLoad.trans {dr : Reg} {s t u : State} (first : OnlyLoad dr s t) (second : OnlyLoad dr t u) :
    OnlyLoad dr s u := by
  obtain ⟨regs, pc, mem, output, run, params⟩ := first
  obtain ⟨regs', pc', mem', output', run', params'⟩ := second
  exact ⟨fun q other => (regs' q other).trans (regs q other), pc'.trans pc,
    fun a other => (mem' a other).trans (mem a other), output'.trans output, run'.trans run, params'.trans params⟩

/-- Every cell but the two keyboard cells is kept by a read (R53). -/
theorem readEffect_memKept (s : State) (a : Word) : MemKept [kbsr, kbdr] s (readEffect s a) := by
  intro b other
  obtain ⟨notStatus, notData⟩ : b ≠ kbsr ∧ b ≠ kbdr := by simpa using other
  exact readEffect_cell s a b notStatus notData

/-- A read does no more than a load may, whatever its destination. -/
theorem readEffect_onlyLoad (s : State) (a : Word) (dr : Reg) : OnlyLoad dr s (readEffect s a) :=
  ⟨fun q _ => readEffect_reg s a q, readEffect_pc s a, readEffect_memKept s a, readEffect_output s a,
    readEffect_run s a, readEffect_params s a⟩

/-! ### The operation that ends LD, LDI and LDR -/

section LoadFrom

variable (s : State) (dr : Reg) (ea : Word)

/-- A load writes, as its result, the word read into the state that the read left. -/
theorem loadFrom_eq : loadFrom s dr ea = writeResult (memRead s ea).2 dr (memRead s ea).1 := rfl

theorem loadFrom_reg_self : (loadFrom s dr ea).reg dr = (memRead s ea).1 := by
  rw [loadFrom_eq, writeResult_reg, if_pos rfl]

theorem loadFrom_cond : (loadFrom s dr ea).cond = condOf (memRead s ea).1 := by
  rw [loadFrom_eq, writeResult_cond]

theorem loadFrom_mem : (loadFrom s dr ea).mem = (memRead s ea).2.mem := by
  rw [loadFrom_eq, writeResult_mem]

theorem loadFrom_keyboard : (loadFrom s dr ea).keyboard = (memRead s ea).2.keyboard := by
  rw [loadFrom_eq, writeResult_keyboard]

/-- The frame of a load: that of its read, then that of its result. -/
theorem loadFrom_onlyLoad : OnlyLoad dr s (loadFrom s dr ea) :=
  (readEffect_onlyLoad s ea dr).trans (writeResult_onlyResult _ dr _).onlyLoad

/-- Away from 0xFE00 the read changes nothing, so only the result is written. -/
theorem loadFrom_onlyResult {ea : Word} (notStatus : ea ≠ kbsr) : OnlyResult dr s (loadFrom s dr ea) := by
  rw [loadFrom_eq, memRead_plain s notStatus]
  exact writeResult_onlyResult s dr (s.cell ea)

end LoadFrom

/-- An instruction that only loads completes, with the word read in its destination, that word's flags, memory and keyboard
as the read left them, and nothing else changed. -/
theorem completes_of_exec_eq_loadFrom {i : Instr} {s : State} {dr : Reg} {ea : Word}
    (e : exec i s = .next (loadFrom s dr ea)) :
    ∃ t, exec i s = .next t ∧ t.reg dr = (memRead s ea).1 ∧ t.cond = condOf (t.reg dr) ∧
      t.mem = (memRead s ea).2.mem ∧ t.keyboard = (memRead s ea).2.keyboard ∧
      OnlyLoad dr s t ∧ (ea ≠ kbsr → OnlyResult dr s t) := by
  refine ⟨loadFrom s dr ea, e, loadFrom_reg_self s dr ea, ?_, loadFrom_mem s dr ea, loadFrom_keyboard s dr ea,
    loadFrom_onlyLoad s dr ea, loadFrom_onlyResult s dr⟩
  rw [loadFrom_reg_self, loadFrom_cond]

/-! ### The state each load leaves -/

section LoadStates

variable (dr baseR : Reg) (off9 : BitVec 9) (off6 : BitVec 6) (s : State)

theorem exec_ld : exec (.ld dr off9) s = .next (loadFrom s dr (s.pc + sext off9)) := rfl

theorem exec_ldi : exec (.ldi dr off9) s =
    .next (loadFrom (readEffect s (s.pc + sext off9)) dr ((readEffect s (s.pc + sext off9)).cell (s.pc + sext off9))) := rfl

theorem exec_ldr : exec (.ldr dr baseR off6) s = .next (loadFrom s dr (s.reg baseR + sext off6)) := rfl

theorem exec_lea : exec (.lea dr off9) s = .next (writeResult s dr (s.pc + sext off9)) := rfl

end LoadStates

/-- Settles O29: the words are those of LD's row, and LD is one load from the PC-relative address. -/
theorem loadPcRelative : Obligations.LoadPcRelative :=
  ⟨fun _ => decode_of_row (r := ⟨.ld, 0xF000, 0x2000, 0xFFFF⟩) (by decide),
    fun dr off9 s => completes_of_exec_eq_loadFrom (exec_ld dr off9 s)⟩

/-- Settles O31: the words are those of LDR's row, and LDR is one load from the base register's address. -/
theorem loadBaseOffset : Obligations.LoadBaseOffset :=
  ⟨fun _ => decode_of_row (r := ⟨.ldr, 0xF000, 0x6000, 0xFFFF⟩) (by decide),
    fun dr baseR off6 s => completes_of_exec_eq_loadFrom (exec_ldr dr baseR off6 s)⟩

/-- Settles O32: the words are those of LEA's row, and the address is all that is written. -/
theorem loadEffectiveAddress : Obligations.LoadEffectiveAddress :=
  ⟨fun _ => decode_of_row (r := ⟨.lea, 0xF000, 0xE000, 0xFFFF⟩) (by decide),
    fun dr off9 s => completes_of_exec_eq_writeResult (exec_lea dr off9 s)⟩

/-- Settles O30: the words are those of LDI's row; the load is made in the state that the pointer read left, which away from
0xFE00 is the first state itself. -/
theorem loadIndirect : Obligations.LoadIndirect := by
  refine ⟨fun _ => decode_of_row (r := ⟨.ldi, 0xF000, 0xA000, 0xFFFF⟩) (by decide), fun dr off9 s => ?_⟩
  refine ⟨_, _, _, _, _, rfl, rfl, exec_ldi dr off9 s, loadFrom_reg_self .., loadFrom_cond .., loadFrom_mem ..,
    loadFrom_keyboard .., (readEffect_onlyLoad s _ dr).trans (loadFrom_onlyLoad ..), fun notStatus notPointed => ?_⟩
  rw [readEffect_plain s notStatus, readEffect_plain s notPointed]
  exact ⟨rfl, loadFrom_onlyResult s dr notPointed⟩

end Sys2Proof.Machine

/-! PROOFS. Stores (42_load_store.md R110 to R112): one write, after the pointer read in STI. -/

namespace Sys2Proof.Machine

/-- An instruction that only stores completes, with the value in the cell and nothing else changed. -/
theorem completes_of_exec_eq_memWrite {i : Instr} {s : State} {a v : Word} (e : exec i s = .next (memWrite s a v)) :
    ∃ t, exec i s = .next t ∧ t.cell a = v ∧ OnlyStore a s t :=
  ⟨memWrite s a v, e, memWrite_cell_self s a v, memWrite_onlyStore s a v⟩

/-- A store after a read keeps every cell but its own and the two keyboard cells. -/
theorem memWrite_readEffect_memKept (s : State) (a p v : Word) :
    MemKept [p, kbsr, kbdr] s (memWrite (readEffect s a) p v) := by
  intro b other
  rw [memWrite_cell, if_neg (List.ne_of_not_mem_cons other)]
  exact readEffect_memKept s a b (List.not_mem_of_not_mem_cons other)

section StoreStates

variable (sr baseR : Reg) (off9 : BitVec 9) (off6 : BitVec 6) (s : State)

theorem exec_st : exec (.st sr off9) s = .next (memWrite s (s.pc + sext off9) (s.reg sr)) := rfl

theorem exec_sti : exec (.sti sr off9) s =
    .next (memWrite (readEffect s (s.pc + sext off9)) ((readEffect s (s.pc + sext off9)).cell (s.pc + sext off9))
      (s.reg sr)) := rfl

theorem exec_str : exec (.str sr baseR off6) s = .next (memWrite s (s.reg baseR + sext off6) (s.reg sr)) := rfl

end StoreStates

/-- Settles O33: the words are those of ST's row, and ST is one write to the PC-relative address. -/
theorem storePcRelative : Obligations.StorePcRelative :=
  ⟨fun _ => decode_of_row (r := ⟨.st, 0xF000, 0x3000, 0xFFFF⟩) (by decide),
    fun sr off9 s => completes_of_exec_eq_memWrite (exec_st sr off9 s)⟩

/-- Settles O35: the words are those of STR's row, and STR is one write to the base register's address. -/
theorem storeBaseOffset : Obligations.StoreBaseOffset :=
  ⟨fun _ => decode_of_row (r := ⟨.str, 0xF000, 0x7000, 0xFFFF⟩) (by decide),
    fun sr baseR off6 s => completes_of_exec_eq_memWrite (exec_str sr baseR off6 s)⟩

/-- Settles O34: the words are those of STI's row; the write is made in the state that the pointer read left, which away
from 0xFE00 is the first state itself. -/
theorem storeIndirect : Obligations.StoreIndirect := by
  refine ⟨fun _ => decode_of_row (r := ⟨.sti, 0xF000, 0xB000, 0xFFFF⟩) (by decide), fun sr off9 s => ?_⟩
  refine ⟨_, _, _, rfl, exec_sti sr off9 s, memWrite_cell_self .., memWrite_onlyStore ..,
    fun q _ => readEffect_reg s _ q, memWrite_readEffect_memKept s _ _ _, fun notStatus => ?_⟩
  rw [readEffect_plain s notStatus]
  exact ⟨rfl, memWrite_onlyStore ..⟩

end Sys2Proof.Machine

/-! PROOFS. The loader (70_reset_and_hazards.md R148, R149): where the words of an image go. -/

namespace Sys2Proof.Machine

/-- The image of a list of words: each word is two bytes, the first its bits 15:8 (R148). -/
def imageOfWords (words : List Word) : List Byte :=
  words.flatMap fun w => [w.extractLsb' 8 8, w.extractLsb' 0 8]

theorem imageOfWords_cons (w : Word) (words : List Word) :
    imageOfWords (w :: words) = w.extractLsb' 8 8 :: w.extractLsb' 0 8 :: imageOfWords words := rfl

/-- The loader puts the two bytes of a word together again. -/
theorem imageWord_extractLsb' (w : Word) : imageWord (w.extractLsb' 8 8) (w.extractLsb' 0 8) = w :=
  (BitVec.extractLsb'_append_extractLsb'_eq_extractLsb' (start₂ := 8) (start₁ := 0) rfl).trans
    BitVec.extractLsb'_eq_self

/-- The next word of the image is written, or, past 0xFFFF, it and all that follow are ignored (R149). -/
theorem loadFromAddress_word (a : Nat) (w : Word) (words : List Word) (m : Memory) :
    loadFromAddress a (imageOfWords (w :: words)) m =
      if a ≤ 0xFFFF then loadFromAddress (a + 1) (imageOfWords words) (m.poke a w) else m := by
  rw [imageOfWords_cons, loadFromAddress, imageWord_extractLsb']

/-- What a cell holds after loading from address `a` on: its word of the image, or, below `a` and past the last word, what
it held before. By induction on the words: each write is seen at its own address only. -/
theorem peek_loadFromAddress (words : List Word) (a : Nat) (m : Memory) {b : Nat} (inRange : b ≤ 0xFFFF) :
    (loadFromAddress a (imageOfWords words) m).peek b =
      if a ≤ b then words.getD (b - a) (m.peek b) else m.peek b := by
  induction words generalizing a m with
  | nil => simp [imageOfWords, loadFromAddress]
  | cons w words ih =>
    rw [loadFromAddress_word]
    by_cases top : a ≤ 0xFFFF
    · rw [if_pos top, ih, peek_poke]
      obtain below | rfl | above := Nat.lt_trichotomy b a
      · rw [if_neg (by omega), if_neg (by omega), if_neg (by omega)]
      · simp
      · have next : b - a = b - (a + 1) + 1 := by omega
        rw [if_pos (by omega), if_neg (by omega), if_pos (by omega), next, List.getD_cons_succ]
    · rw [if_neg top, if_neg (by omega)]

/-- Settles O15: the first word is the origin, and the others are loaded from there on over all-zero memory. -/
theorem loaderPlacesWordsFromTheOrigin : Obligations.LoaderPlacesWordsFromTheOrigin := by
  intro o words a
  have fromOrigin : loadImage (imageOfWords (o :: words)) = loadFromAddress o.toNat (imageOfWords words) [] := by
    rw [imageOfWords_cons, loadImage_eq, imageWord_extractLsb']
  change (loadImage (imageOfWords (o :: words))).peek a.toNat = _
  rw [fromOrigin, peek_loadFromAddress words o.toNat [] (Nat.le_of_lt_succ a.isLt)]
  rfl

end Sys2Proof.Machine

/-! PROOFS. Encoding and decoding are inverse to each other (30_encoding.md R65 to R73), and every word has its row (R66,
R77). -/

namespace Sys2Proof

/-! ### The fields of an encoded word -/

theorem field_or (v w : Word) (lo len : Nat) : field (v ||| w) lo len = field v lo len ||| field w lo len :=
  BitVec.eq_of_getLsbD_eq fun k _ => by simp only [field_getLsbD, BitVec.getLsbD_or, Bool.and_or_distrib_left]

theorem field_ofNat (n lo len : Nat) :
    field (BitVec.ofNat 16 n) lo len = BitVec.ofNat len (n % 65536 / 2 ^ lo) := by
  rw [← Nat.shiftRight_eq_div_pow]
  rfl

/-- A field read where it was placed. -/
theorem field_place_self {lo len : Nat} (v : BitVec len) (inWord : lo + len ≤ 16) : field (place v lo) lo len = v := by
  refine BitVec.eq_of_getLsbD_eq fun k hk => ?_
  rw [field_getLsbD, place_getLsbD, Nat.add_sub_cancel_left]
  simp [hk, show lo + k < 16 by omega]

/-- A field read beside the one that was placed. -/
theorem field_place_apart {lo len lo' len' : Nat} (v : BitVec len') (apart : lo + len ≤ lo' ∨ lo' + len' ≤ lo) :
    field (place v lo') lo len = 0 := by
  refine BitVec.eq_of_getLsbD_eq fun k hk => ?_
  rw [field_getLsbD, place_getLsbD]
  obtain below | above := apart
  · simp [show ¬ lo' ≤ lo + k by omega]
  · simp [BitVec.getLsbD_of_ge v (lo + k - lo') (by omega)]

/-- The fields of an encoded instruction are its operands: of the bits set in the word, a field meets only its own. -/
theorem read_encode (i : Instr) : i.form.read (encode i) = i := by
  cases i <;>
    simp (disch := omega) [Instr.form, Form.read, encode, regAt9, regAt6, regAt0, field_or, field_ofNat,
      field_place_self, field_place_apart]

/-- Every instruction is encoded in its own row: the laws of the single instructions together. -/
theorem encodesInRow (i : Instr) : Laws.EncodesInRow.Statement i :=
  match i with
  | .addReg dr sr1 sr2 => Laws.EncodesInRow.addReg dr sr1 sr2
  | .addImm dr sr1 imm5 => Laws.EncodesInRow.addImm dr sr1 imm5
  | .andReg dr sr1 sr2 => Laws.EncodesInRow.andReg dr sr1 sr2
  | .andImm dr sr1 imm5 => Laws.EncodesInRow.andImm dr sr1 imm5
  | .not dr sr => Laws.EncodesInRow.not dr sr
  | .br mask off9 => Laws.EncodesInRow.br mask off9
  | .jmp baseR => Laws.EncodesInRow.jmp baseR
  | .jsr off11 => Laws.EncodesInRow.jsr off11
  | .jsrr baseR => Laws.EncodesInRow.jsrr baseR
  | .ld dr off9 => Laws.EncodesInRow.ld dr off9
  | .ldi dr off9 => Laws.EncodesInRow.ldi dr off9
  | .ldr dr baseR off6 => Laws.EncodesInRow.ldr dr baseR off6
  | .lea dr off9 => Laws.EncodesInRow.lea dr off9
  | .st sr off9 => Laws.EncodesInRow.st sr off9
  | .sti sr off9 => Laws.EncodesInRow.sti sr off9
  | .str sr baseR off6 => Laws.EncodesInRow.str sr baseR off6
  | .trap trapvect8 => Laws.EncodesInRow.trap trapvect8
  | .reserved8 => Laws.EncodesInRow.reserved8
  | .reserved13 => Laws.EncodesInRow.reserved13

/-- The word of an instruction decodes to it: it belongs to the instruction's row, and its fields are the operands. -/
theorem decode_encode (i : Instr) : decode (encode i) = i := by
  obtain ⟨-, r, mem, form, accepted, -⟩ := encodesInRow i
  rw [decode_of_row mem (eq_of_beq accepted), form, read_encode]

/-- Settles O1. -/
theorem decodeOfEncodeIsIdentity : Obligations.DecodeOfEncodeIsIdentity := fun i _ => decode_encode i

/-! ### The row of a word -/

/-- No row examines a bit besides 15:12, 11 and 5 (R75). -/
theorem mask_within_examined {r : Row} (mem : r ∈ opcodeTable) : 0xF820 &&& r.mask = r.mask := by
  revert r
  decide

/-- The form tells the row. -/
theorem row_eq_of_form {q r : Row} (memQ : q ∈ opcodeTable) (memR : r ∈ opcodeTable) (same : q.form = r.form) :
    q = r := by
  have distinct : ∀ q ∈ opcodeTable, ∀ r ∈ opcodeTable, q.form = r.form → q = r := by decide
  exact distinct q memQ r memR same

/-- The bits of a field, put back at their place. -/
theorem place_field (w : Word) (lo len : Nat) :
    place (field w lo len) lo = w &&& place (BitVec.allOnes len) lo := by
  refine BitVec.eq_of_getLsbD_eq fun k hk => ?_
  rw [place_getLsbD, field_getLsbD, BitVec.getLsbD_and, place_getLsbD, BitVec.getLsbD_allOnes]
  by_cases le : lo ≤ k
  · rw [Nat.add_sub_cancel' le]
    simp [hk, le, Bool.and_comm]
  · simp [le]

/-- The examined bits are the opcode, bit 11 and bit 5. -/
theorem examined_eq_place (w : Word) :
    w &&& 0xF820 = place (field w 12 4) 12 ||| place (field w 11 1) 11 ||| place (field w 5 1) 5 := by
  rw [place_field, place_field, place_field, ← BitVec.and_or_distrib_left, ← BitVec.and_or_distrib_left]
  rfl

/-- Whatever the opcode, bit 11 and bit 5, one row accepts the word that has them. -/
theorem exists_row_of_examined (opcode : BitVec 4) (long mode : BitVec 1) : ∃ r ∈ opcodeTable,
    (place opcode 12 ||| place long 11 ||| place mode 5) &&& r.mask = r.pattern := by
  revert opcode long mode
  decide

/-- Every word belongs to a row. -/
theorem exists_row (w : Word) : ∃ r ∈ opcodeTable, w &&& r.mask = r.pattern := by
  obtain ⟨r, mem, h⟩ := exists_row_of_examined (field w 12 4) (field w 11 1) (field w 5 1)
  rw [← examined_eq_place, BitVec.and_assoc, mask_within_examined mem] at h
  exact ⟨r, mem, h⟩

/-- Settles O3: a row that accepts the word has the form the decoder finds, and the form tells the row. -/
theorem everyWordBelongsToOneRow : Obligations.EveryWordBelongsToOneRow := by
  intro w
  obtain ⟨r, mem, h⟩ := exists_row w
  have form := form_of_row mem h
  refine ⟨r, mem, beq_iff_eq.mpr h, form.symm, fun q memQ accepted => row_eq_of_form memQ mem ?_⟩
  exact (form_of_row memQ (eq_of_beq accepted)).symm.trans form

/-- The row of the form that the decoder finds accepts the word. -/
theorem masked_of_form {w : Word} {r : Row} (mem : r ∈ opcodeTable) (form : r.form = (decode w).form) :
    w &&& r.mask = r.pattern := by
  obtain ⟨q, memQ, h⟩ := exists_row w
  rwa [row_eq_of_form memQ mem ((form_of_row memQ h).symm.trans form.symm)] at h

/-! ### The bits a row names -/

/-- The bits of the operand fields (R65). -/
def Form.operandBits : Form → Word
  | .addReg | .andReg => 0x0FC7
  | .addImm | .andImm => 0x0FDF
  | .not => 0x0FC0
  | .jmp | .jsrr => 0x01C0
  | .jsr => 0x07FF
  | .br | .ld | .ldi | .ldr | .lea | .st | .sti | .str => 0x0FFF
  | .trap => 0x00FF
  | .reserved8 | .reserved13 => 0

/-- A row names the bits it examines and those of its operands. -/
theorem mask_or_operandBits {r : Row} (mem : r ∈ opcodeTable) : r.mask ||| r.form.operandBits = r.named := by
  revert r
  decide

/-- A row's pattern is the encoding with every operand bit clear. -/
theorem encode_read_zero {r : Row} (mem : r ∈ opcodeTable) : encode (r.form.read 0) = r.pattern := by
  revert r
  decide

/-- The encoder puts each operand that was read from a word back at its place. -/
theorem encode_read (f : Form) (w : Word) : encode (f.read w) = encode (f.read 0) ||| (w &&& f.operandBits) := by
  cases f <;>
    simp only [Form.read, encode, regAt9, regAt6, regAt0, Reg.bits_ofBits, place_field, BitVec.or_assoc,
      ← BitVec.and_or_distrib_left, BitVec.ofNat_eq_ofNat, BitVec.zero_and, BitVec.and_zero, BitVec.zero_or, BitVec.or_zero,
      Form.operandBits] <;>
    rfl

/-- The encoding of what is read from a word of a row is the word with the row's ignored bits clear. -/
theorem encode_read_of_row {w : Word} {r : Row} (mem : r ∈ opcodeTable) (h : w &&& r.mask = r.pattern) :
    encode (r.form.read w) = w &&& r.named := by
  rw [encode_read, encode_read_zero mem, ← h, ← BitVec.and_or_distrib_left, mask_or_operandBits mem]

/-- Settles O2: the row of the decoder's form accepts the word, so it is the row's instruction. -/
theorem encodeOfDecodeKeepsNamedBits : Obligations.EncodeOfDecodeKeepsNamedBits := by
  intro w r mem form
  have h := masked_of_form mem form
  rw [decode_of_row mem h, encode_read_of_row mem h]

/-! ### The bits no row names -/

/-- The decoder does not see the ignored bits: the word without them encodes the same instruction. -/
theorem decode_and_named {w : Word} {r : Row} (mem : r ∈ opcodeTable) (h : w &&& r.mask = r.pattern) :
    decode (w &&& r.named) = decode w := by
  rw [← encode_read_of_row mem h, decode_encode, decode_of_row mem h]

/-- A row names every bit it examines. -/
theorem named_and_mask {r : Row} (mem : r ∈ opcodeTable) : r.named &&& r.mask = r.mask := by
  revert r
  decide

/-- Flips outside a mask are not seen through it. -/
theorem flip_and_of_disjoint {flipped mask : Word} (disjoint : flipped &&& mask = 0) (w flips : Word) :
    (w ^^^ (flips &&& flipped)) &&& mask = w &&& mask := by
  refine BitVec.eq_of_getLsbD_eq fun k _ => ?_
  have bit : (flipped.getLsbD k && mask.getLsbD k) = false := by
    rw [← BitVec.getLsbD_and, disjoint]
    exact BitVec.getLsbD_zero
  rw [BitVec.getLsbD_and, BitVec.getLsbD_xor, BitVec.getLsbD_and, BitVec.getLsbD_and]
  cases inMask : mask.getLsbD k with
  | false => simp
  | true =>
    rw [inMask, Bool.and_true] at bit
    simp [bit]

/-- Flipping ignored bits leaves the same instruction. -/
theorem decode_flip {w : Word} {r : Row} (mem : r ∈ opcodeTable) (h : w &&& r.mask = r.pattern) {flipped : Word}
    (ignored : flipped &&& r.named = 0) (flips : Word) : decode (w ^^^ (flips &&& flipped)) = decode w := by
  have named := flip_and_of_disjoint ignored w flips
  have h' : (w ^^^ (flips &&& flipped)) &&& r.mask = r.pattern := by
    rw [← named_and_mask mem, ← BitVec.and_assoc, named, BitVec.and_assoc, named_and_mask mem, h]
  rw [← decode_and_named mem h', named, decode_and_named mem h]

/-- Settles O5: each set of flipped bits is clear in the named bits of the row its clause is about. -/
theorem ignoredBitsChangeNothing : Obligations.IgnoredBitsChangeNothing := by
  refine fun w flips => ⟨?_, ?_, ?_, ?_, ?_⟩
  · rintro (h | h)
    · exact decode_flip (r := ⟨.addReg, 0xF020, 0x1000, 0xFFE7⟩) (by decide) h rfl flips
    · exact decode_flip (r := ⟨.andReg, 0xF020, 0x5000, 0xFFE7⟩) (by decide) h rfl flips
  · exact fun h => decode_flip (r := ⟨.not, 0xF000, 0x9000, 0xFFC0⟩) (by decide) h rfl flips
  · exact fun h => decode_flip (r := ⟨.jmp, 0xF000, 0xC000, 0xF1C0⟩) (by decide) h rfl flips
  · exact fun h => decode_flip (r := ⟨.jsrr, 0xF800, 0x4000, 0xF9C0⟩) (by decide) h rfl flips
  · exact fun h => decode_flip (r := ⟨.trap, 0xF000, 0xF000, 0xF0FF⟩) (by decide) h rfl flips

/-- Settles O6. -/
theorem sampleWordsDecode : Obligations.SampleWordsDecode := by
  unfold Obligations.SampleWordsDecode
  decide

end Sys2Proof

/-! PROOFS. The datapath units (40_alu_operate.md R87, R89) and AND in immediate mode (R95). -/

namespace Sys2Proof.Machine

/-- Settles O18: one clause for each branch of the generator. -/
theorem conditionCodeGenerator : Obligations.ConditionCodeGenerator := by
  refine ⟨fun v => ⟨fun zero => ?_, fun nonzero negative => ?_, fun nonzero positive => ?_⟩, fun _ _ => rfl⟩
  · rw [condOf, if_pos zero]
  · rw [condOf, if_neg nonzero, if_pos negative]
  · rw [condOf, if_neg nonzero, if_neg (by rw [positive]; decide)]

theorem add16_eq (a b : Word) : add16 a b = a + b := rfl

/-- Complement and add one is the negative, so adding it subtracts (R87). -/
theorem add16_not16_add16_one (a b : Word) : add16 a (add16 (not16 b) 1) = a - b := by
  rw [add16_eq, add16_eq, not16, BitVec.sub_eq_add_neg, BitVec.neg_eq_not_add]
  rfl

/-- Settles O19: the sum and the difference of `BitVec` wrap in both readings. -/
theorem arithmeticWraps : Obligations.ArithmeticWraps := by
  refine fun a b => ⟨?_, ?_, ?_⟩
  · exact BitVec.toNat_add a b
  · exact BitVec.toInt_add a b
  · rw [add16_not16_add16_one]
    exact BitVec.toInt_sub

/-! ### AND in immediate mode -/

/-- A nonnegative immediate is extended with zeros. -/
theorem toNat_sext_imm5 {imm5 : BitVec 5} (nonneg : imm5.toNat < 16) : (sext imm5).toNat = imm5.toNat := by
  have top : imm5.msb = false := by
    rw [BitVec.msb_eq_decide]
    simpa using nonneg
  rw [sext_of_msb_false top, BitVec.toNat_setWidth, Nat.mod_eq_of_lt (by omega)]

/-- A conjunction is no greater than its second operand. -/
theorem toNat_and_lt {v w : Word} {n : Nat} (bound : w.toNat < n) : (v &&& w).toNat < n := by
  rw [BitVec.toNat_and]
  exact Nat.lt_of_le_of_lt Nat.and_le_right bound

/-- N only for the words with bit 15 set. -/
theorem condOf_ne_negative {v : Word} (small : v.toNat < 0x8000) : condOf v ≠ 0b100 := by
  obtain ⟨zero, -, positive⟩ := conditionCodeGenerator.1 v
  have top : v.getLsbD 15 = false := Nat.testBit_lt_two_pow small
  by_cases h : v = 0
  · rw [zero h]; decide
  · rw [positive h top]; decide

/-- Settles O23: the words are those of AND's second row, and the conjunction is all that is written; with a nonnegative
immediate it is below 16 as that operand is. -/
theorem andImmediateMode : Obligations.AndImmediateMode := by
  refine ⟨fun _ => decode_of_row (r := ⟨.andImm, 0xF020, 0x5020, 0xFFFF⟩) (by decide), fun dr sr1 imm5 s => ?_⟩
  obtain ⟨t, e, value, cond, frame⟩ := completes_of_exec_eq_writeResult (exec_andImm dr sr1 imm5 s)
  refine ⟨t, e, value, cond, frame, fun nonneg => ?_⟩
  have small : (s.reg sr1 &&& sext imm5).toNat < 16 := toNat_and_lt (by rwa [toNat_sext_imm5 nonneg])
  rw [value, cond]
  exact ⟨small, condOf_ne_negative (small.trans (by decide))⟩

end Sys2Proof.Machine

/-! PROOFS. Control transfer: BR and JSRR (41_control.md R99, R102). -/

namespace Sys2Proof.Machine

/-- The frame leaves PC free, so it holds when nothing at all is written. -/
theorem OnlyPc.refl (s : State) : OnlyPc [] s s := ⟨fun _ _ => rfl, rfl, fun _ _ => rfl, ⟨rfl, rfl⟩, rfl, rfl⟩

theorem exec_br (mask : BitVec 3) (off9 : BitVec 9) (s : State) : exec (.br mask off9) s =
    .next (if mask &&& s.cond ≠ 0 then s.setPc (s.pc + sext off9) else s) := rfl

/-- JSRR links and jumps; its target is the link itself under `LinkFirst` with base R7, and else the base register (D19). -/
theorem exec_jsrr (baseR : Reg) (s : State) : exec (.jsrr baseR) s = .next ((linkR7 s).setPc
    (if s.params.jsrrOrder = .linkFirst ∧ baseR = .r7 then s.pc else s.reg baseR)) := by
  show execJsrr baseR s = _
  unfold execJsrr
  cases s.params.jsrrOrder <;> simp

/-- Settles O25: the words are those of BR's row; taken or not, nothing but PC is written. -/
theorem branchOnMask : Obligations.BranchOnMask := by
  refine ⟨fun _ => decode_of_row (r := ⟨.br, 0xF000, 0x0000, 0xFFFF⟩) (by decide), fun mask off9 s => ?_⟩
  refine ⟨_, exec_br mask off9 s, ?_⟩
  split
  · exact ⟨setPc_pc s _, setPc_onlyPc s _⟩
  · exact ⟨rfl, OnlyPc.refl s⟩

/-- Settles O28: the words are those of JSRR's row; the link writes R7, and then only PC is written. -/
theorem callRegister : Obligations.CallRegister := by
  refine ⟨fun _ => decode_of_row (r := ⟨.jsrr, 0xF800, 0x4000, 0xF9C0⟩) (by decide), fun baseR s => ?_⟩
  exact ⟨_, exec_jsrr baseR s, by rw [setPc_reg, linkR7_reg_r7], setPc_pc _ _, (linkR7_onlyPc s).setPc _⟩

end Sys2Proof.Machine

/-! PROOFS. The keyboard cells (20_memory.md R53, R54) and the console's answers (00_scope.md R9). -/

namespace Sys2Proof.Machine

/-- A poll that finds a character sets the status cell and puts the character in the data cell. -/
theorem pollKeyboard_of_ready {s : State} {k : Keyboard} {c : Byte} (poll : s.keyboard.poll = (k, some c)) :
    pollKeyboard s =
      memWrite (memWrite (s.setKeyboard k) kbsr (readyStatus s.params.kbsrSetMode (s.cell kbsr))) kbdr (zext c) := by
  rw [pollKeyboard, poll]

/-- A poll that finds nothing only clears the status cell. -/
theorem pollKeyboard_of_unready {s : State} {k : Keyboard} (poll : s.keyboard.poll = (k, none)) :
    pollKeyboard s = memWrite (s.setKeyboard k) kbsr 0 := by
  rw [pollKeyboard, poll]

theorem kbsr_ne_kbdr : kbsr ≠ kbdr := by decide

theorem pollKeyboard_status_of_ready {s : State} {k : Keyboard} {c : Byte} (poll : s.keyboard.poll = (k, some c)) :
    (pollKeyboard s).cell kbsr = readyStatus s.params.kbsrSetMode (s.cell kbsr) := by
  rw [pollKeyboard_of_ready poll, memWrite_cell, if_neg kbsr_ne_kbdr, memWrite_cell_self]

theorem pollKeyboard_status_of_unready {s : State} {k : Keyboard} (poll : s.keyboard.poll = (k, none)) :
    (pollKeyboard s).cell kbsr = 0 := by
  rw [pollKeyboard_of_unready poll, memWrite_cell_self]

theorem pollKeyboard_data_of_ready {s : State} {k : Keyboard} {c : Byte} (poll : s.keyboard.poll = (k, some c)) :
    (pollKeyboard s).cell kbdr = zext c := by
  rw [pollKeyboard_of_ready poll, memWrite_cell_self]

/-- The host's side after the poll, whatever it found. -/
theorem pollKeyboard_keyboard (s : State) : (pollKeyboard s).keyboard = s.keyboard.poll.1 := by
  obtain ⟨k, c, poll, h⟩ | ⟨k, poll, h⟩ := pollKeyboard_cases s <;> rw [h, poll] <;> rfl

/-- A ready status word by `KBSR_SET_MODE` (D8). -/
theorem readyStatus_eq (mode : KbsrSetMode) (old : Word) :
    readyStatus mode old = if mode = .or then old ||| 0x8000 else 0x8000 := by
  cases mode <;> rfl

/-- Settles O38: the read of 0xFE00 is the poll, and then the value of the status cell. -/
theorem statusReadPolls : Obligations.StatusReadPolls := by
  refine ⟨rfl, rfl, fun s => ?_⟩
  rw [memRead_fst, memRead_snd]
  obtain ⟨-, pc, mem, output, control⟩ := readEffect_onlyLoad s kbsr .r0
  refine ⟨fun k c poll => ?_, fun k poll => ?_, rfl, fun r _ => readEffect_reg s kbsr r, pc, readEffect_cond s kbsr, mem,
    output, control⟩ <;> rw [readEffect_kbsr, pollKeyboard_keyboard, poll]
  · exact ⟨(pollKeyboard_status_of_ready poll).trans (readyStatus_eq _ _), pollKeyboard_data_of_ready poll, rfl⟩
  · refine ⟨pollKeyboard_status_of_unready poll, ?_, rfl⟩
    rw [pollKeyboard_of_unready poll, memWrite_cell, if_neg kbsr_ne_kbdr.symm, setKeyboard_cell]

/-- A ready status word has its bit 15 set. -/
theorem readyStatus_negative (mode : KbsrSetMode) (old : Word) : (readyStatus mode old).getLsbD 15 = true := by
  cases mode with
  | or =>
    rw [readyStatus, BitVec.getLsbD_or]
    exact Bool.or_true _
  | assign =>
    rw [readyStatus]
    decide

/-- Settles O40: the status word of a ready poll is negative, that of any other is zero. -/
theorem statusSignTellsReadiness : Obligations.StatusSignTellsReadiness := by
  intro s
  rw [memRead_fst, readEffect_kbsr]
  obtain ⟨k, c, poll, -⟩ | ⟨k, poll, -⟩ := pollKeyboard_cases s
  · rw [pollKeyboard_status_of_ready poll, poll]
    have negative := readyStatus_negative s.params.kbsrSetMode (s.cell kbsr)
    have nonzero := readyStatus_ne_zero s.params.kbsrSetMode (s.cell kbsr)
    have n := (conditionCodeGenerator.1 _).2.1 nonzero negative
    exact ⟨iff_of_true negative rfl, iff_of_false nonzero nofun, iff_of_true n rfl,
      iff_of_false (by rw [n]; decide) nofun⟩
  · rw [pollKeyboard_status_of_unready poll, poll]
    exact ⟨iff_of_false (by decide) nofun, iff_of_true rfl rfl, iff_of_false (by decide) nofun, iff_of_true rfl rfl⟩

end Sys2Proof.Machine

namespace Sys2Proof

/-- A blocking read sees only what is settled. -/
theorem Keyboard.read_refill (k : Keyboard) : k.refill.read = k.read := by
  unfold read
  rw [refill_refill]

/-- Settles O39: both take the head of what is settled, and an unready poll only counts its delay down. -/
theorem pollAndBlockingReadAgree : Obligations.PollAndBlockingReadAgree := by
  intro k k'
  rw [← k.read_refill]
  obtain ⟨c, rest, supply, settled, poll⟩ | ⟨d, c, rest, supply, settled, poll⟩ | ⟨settled, poll⟩ := k.poll_cases <;>
    rw [poll, settled]
  · exact ⟨fun | _, rfl => rfl, nofun⟩
  · exact ⟨nofun, fun | rfl => rfl⟩
  · exact ⟨nofun, fun | rfl => rfl⟩

end Sys2Proof

/-! PROOFS. The TRAP services (43_trap.md R115 to R123). -/

namespace Sys2Proof.Machine

/-! ### The frame of a service -/

/-- A service that runs after the link and writes only the registers of its own leaves R7 as the link left it. -/
theorem onlyService_of_trapLink {but : List Reg} (notLink : .r7 ∉ but) {s t : State}
    (regs : RegsKept but (trapLink s) t) (pc : t.pc = s.pc) (cond : t.cond = s.cond) (params : t.params = s.params) :
    OnlyService but s t := by
  refine ⟨fun q other => ?_, fun links => ?_, pc, cond, params⟩
  · obtain ⟨notService, notLinked⟩ := not_or.1 (mt List.mem_append.2 other)
    rw [regs q notService, trapLink_reg, if_neg]
    rintro ⟨links, rfl⟩
    simp [linkRegs, links] at notLinked
  · rw [regs .r7 notLink, trapLink_reg, if_pos ⟨links, rfl⟩]

/-- The frame of a service that writes R0 last: what came before it touched no register, PC, COND or parameter. -/
theorem setReg_r0_onlyService {s u : State} (gpr : u.gpr = (trapLink s).gpr) (pc : u.pc = s.pc) (cond : u.cond = s.cond)
    (params : u.params = s.params) (v : Word) : OnlyService [.r0] s (u.setReg .r0 v) := by
  refine onlyService_of_trapLink (by decide) (fun q other => ?_) pc cond params
  rw [setReg_reg, if_neg (List.ne_of_not_mem_cons other), reg_eq_get, gpr, reg_eq_get]

/-- The frame of a service that writes no register. -/
theorem onlyService_of_gpr {s t : State} (gpr : t.gpr = (trapLink s).gpr) (pc : t.pc = s.pc) (cond : t.cond = s.cond)
    (params : t.params = s.params) : OnlyService [] s t :=
  onlyService_of_trapLink (by decide) (fun q _ => by rw [reg_eq_get, gpr, reg_eq_get]) pc cond params

/-! ### The service each vector selects -/

section Vectors

variable (s : State)

theorem exec_getc : exec (.trap 0x20) s = serviceGetc (trapLink s) := rfl
theorem exec_out : exec (.trap 0x21) s = serviceOut (trapLink s) := rfl
theorem exec_puts : exec (.trap 0x22) s = serviceScan putsChars (trapLink s) := rfl
theorem exec_in : exec (.trap 0x23) s = serviceIn (trapLink s) := rfl
theorem exec_putsp : exec (.trap 0x24) s = serviceScan putspChars (trapLink s) := rfl
theorem exec_halt : exec (.trap 0x25) s = serviceHalt (trapLink s) := rfl

theorem exec_unknown {v : BitVec 8} (h : serviceOf v = .unknown) :
    exec (.trap v) s = serviceUnknown v (trapLink s) := by
  show execTrap v s = _
  rw [execTrap, h]

end Vectors

/-! ### GETC and IN: the blocking reads -/

section BlockingReads

variable {s : State} {c : Byte} {k : Keyboard}

theorem readChar_of_some (h : s.keyboard.read = some (c, k)) : readChar s = some (c, s.setKeyboard k) := by
  rw [readChar, h]

theorem readChar_of_none (h : s.keyboard.read = none) : readChar s = none := by
  rw [readChar, h]

theorem serviceGetc_of_some (h : s.keyboard.read = some (c, k)) :
    serviceGetc s = .next ((s.setKeyboard k).setReg .r0 (zext c)) := by
  rw [serviceGetc, readChar_of_some h]

theorem serviceGetc_of_none (h : s.keyboard.read = none) : serviceGetc s = .fault .awaitingHost := by
  rw [serviceGetc, readChar_of_none h]

theorem serviceIn_of_some (h : s.keyboard.read = some (c, k)) : serviceIn s =
    .next ((((s.write s.params.inPrompt).setKeyboard k).echo c).setReg .r0 (zext c)) := by
  rw [serviceIn, readChar_of_some (s := s.write _) h]

theorem serviceIn_of_none (h : s.keyboard.read = none) : serviceIn s = .fault .awaitingHost := by
  rw [serviceIn, readChar_of_none (s := s.write _) h]

end BlockingReads

theorem setReg_reg_self (s : State) (r : Reg) (v : Word) : (s.setReg r v).reg r = v := by
  rw [setReg_reg, if_pos rfl]

/-- Settles O50: the host's answer is the one it would give before the link. -/
theorem getcReadsOneCharacter : Obligations.GetcReadsOneCharacter := by
  intro s c k read
  refine ⟨_, (exec_getc s).trans (serviceGetc_of_some (by rwa [trapLink_keyboard])), setReg_reg_self _ _ _, rfl,
    trapLink_output s, trapLink_run s, fun a _ => trapLink_cell s a,
    setReg_r0_onlyService rfl (trapLink_pc s) (trapLink_cond s) (trapLink_params s) _⟩

/-- Settles O57: the prompt and the echo change nothing but the output. -/
theorem inPromptsAndEchoes : Obligations.InPromptsAndEchoes := by
  intro s c k read
  refine ⟨_, (exec_in s).trans (serviceIn_of_some (by rwa [trapLink_keyboard])), setReg_reg_self _ _ _, rfl, ?_,
    trapLink_run s, fun a _ => trapLink_cell s a,
    setReg_r0_onlyService rfl (trapLink_pc s) (trapLink_cond s) (trapLink_params s) _⟩
  rw [setReg_output, echo_output, setKeyboard_output, write_output, trapLink_output, trapLink_params]

/-- Settles O51: neither the link nor the prompt brings a character. -/
theorem blockingReadsWaitForTheHost : Obligations.BlockingReadsWaitForTheHost := by
  intro s silent
  rw [← trapLink_keyboard] at silent
  exact ⟨(exec_getc s).trans (serviceGetc_of_none silent), (exec_in s).trans (serviceIn_of_none silent)⟩

/-! ### OUT, HALT and the vectors without a service -/

/-- The low byte of a word is what `lowChar` masks out. -/
theorem lowChar_eq (v : Word) : lowChar v = (v.extractLsb' 0 8).setWidth 16 := by
  refine BitVec.eq_of_getLsbD_eq fun k hk => ?_
  rw [lowChar, BitVec.getLsbD_and, BitVec.getLsbD_setWidth, BitVec.getLsbD_extractLsb']
  interval_cases k <;> simp [-BitVec.getLsbD_eq_getElem]

/-- The high byte of a word is what `highChar` shifts down. -/
theorem highChar_eq (v : Word) : highChar v = (v.extractLsb' 8 8).setWidth 16 := by
  refine BitVec.eq_of_getLsbD_eq fun k hk => ?_
  rw [highChar, BitVec.getLsbD_ushiftRight, BitVec.getLsbD_setWidth, BitVec.getLsbD_extractLsb']
  interval_cases k <;> simp [-BitVec.getLsbD_eq_getElem]

/-- A write after the link changes nothing but the output: the frame of OUT, PUTS and PUTSP. -/
theorem trapLink_write_frame (s : State) (cs : List Word) : ((trapLink s).write cs).keyboard = s.keyboard ∧
    ((trapLink s).write cs).run = s.run ∧ MemKept [] s ((trapLink s).write cs) ∧
    OnlyService [] s ((trapLink s).write cs) :=
  ⟨trapLink_keyboard s, trapLink_run s, fun a _ => trapLink_cell s a,
    onlyService_of_gpr rfl (trapLink_pc s) (trapLink_cond s) (trapLink_params s)⟩

/-- The link leaves the register that OUT, PUTS and PUTSP read. -/
theorem trapLink_reg_r0 (s : State) : (trapLink s).reg .r0 = s.reg .r0 := by simp

/-- Settles O52: the character is the low byte of R0, which the link leaves alone. -/
theorem outWritesTheLowByte : Obligations.OutWritesTheLowByte := by
  intro s
  refine ⟨_, exec_out s, ?_, trapLink_write_frame s _⟩
  rw [write_output, trapLink_output, trapLink_reg_r0, lowChar_eq]
  rfl

/-- Settles O58: the notice changes nothing but the output, and `halt()` nothing but the run state. -/
theorem haltStopsTheCore : Obligations.HaltStopsTheCore := by
  intro s
  refine ⟨_, exec_halt s, rfl, ?_, trapLink_keyboard s, fun a _ => trapLink_cell s a,
    onlyService_of_gpr rfl (trapLink_pc s) (trapLink_cond s) (trapLink_params s), rfl⟩
  rw [haltCore_output, write_output, trapLink_output, trapLink_params]

/-- What an unknown vector does, by `UNKNOWN_TRAP` (D14). -/
theorem exec_unknown_eq {v : BitVec 8} (s : State) (h : serviceOf v = .unknown) : exec (.trap v) s =
    .next (if s.params.unknownTrap = .noop then trapLink s else raiseFault (trapLink s) (.unknownTrap v)) := by
  rw [exec_unknown s h, serviceUnknown, trapLink_params]
  cases s.params.unknownTrap <;> rfl

/-- Settles O59: the fault writes nothing but the run state, and takes the address from PC, which the link leaves alone. -/
theorem unknownVector : Obligations.UnknownVector := by
  intro s v outside
  refine ⟨_, exec_unknown_eq s ((serviceOf_unknown_iff v).2 outside), ?_⟩
  split
  · exact ⟨trapLink_run s, ⟨trapLink_keyboard s, trapLink_output s⟩, fun a _ => trapLink_cell s a,
      onlyService_of_gpr rfl (trapLink_pc s) (trapLink_cond s) (trapLink_params s)⟩
  · refine ⟨?_, ⟨trapLink_keyboard s, trapLink_output s⟩, fun a _ => trapLink_cell s a,
      onlyService_of_gpr rfl (trapLink_pc s) (trapLink_cond s) (trapLink_params s)⟩
    rw [raiseFault_run, State.fpc, trapLink_pc]

/-! ### PUTS and PUTSP: the scan -/

theorem serviceScan_of_some {chars : Word → List Word} {s t : State}
    (h : scan chars (scanFuel s) (s.reg .r0) s = some t) : serviceScan chars s = .next t := by
  rw [serviceScan, h]

theorem serviceScan_eq_hang_iff {chars : Word → List Word} {s : State} :
    serviceScan chars s = .fault .scanHang ↔ scan chars (scanFuel s) (s.reg .r0) s = none := by
  rw [serviceScan]
  cases scan chars (scanFuel s) (s.reg .r0) s <;> simp

/-- The bound on the reads leaves room for a lap through memory and the read after it. -/
theorem lap_lt_scanFuel (s : State) : 65536 < scanFuel s := by
  rw [scanFuel]
  omega

theorem write_nil (s : State) : s.write [] = s := by
  rw [State.write, List.map_nil, List.append_nil]

theorem write_write (s : State) (cs ds : List Word) : (s.write cs).write ds = s.write (cs ++ ds) := by
  simp only [State.write, List.map_append, List.append_assoc]

/-- The cell after `k + 1` others is the one `k` after the next. -/
theorem add_ofNat_succ (a : Word) (k : Nat) : a + BitVec.ofNat 16 (k + 1) = a + 1 + BitVec.ofNat 16 k := by
  rw [BitVec.ofNat_add, BitVec.add_comm (BitVec.ofNat 16 k), ← BitVec.add_assoc]
  rfl

/-- The scan of a string of `n` nonzero cells that does not meet 0xFE00 (R117, R119): what is written for each cell in turn,
and nothing else. By induction on the string: the first read is plain, so only the output differs afterwards. -/
theorem scan_string (chars : Word → List Word) {n : Nat} {a : Word} {s : State}
    (string : ∀ k < n, a + BitVec.ofNat 16 k ≠ kbsr ∧ s.cell (a + BitVec.ofNat 16 k) ≠ 0)
    (plainEnd : a + BitVec.ofNat 16 n ≠ kbsr) (zeroEnd : s.cell (a + BitVec.ofNat 16 n) = 0) :
    scan chars (n + 1) a s = some (s.write ((List.range n).flatMap fun k => chars (s.cell (a + BitVec.ofNat 16 k)))) := by
  induction n generalizing a s with
  | zero =>
    rw [BitVec.add_zero] at plainEnd zeroEnd
    rw [scan_stop 0 (by rwa [readEffect_plain s plainEnd]), readEffect_plain s plainEnd, List.range_zero, List.flatMap_nil,
      write_nil]
  | succ n ih =>
    obtain ⟨plain, nonzero⟩ := string 0 (Nat.succ_pos n)
    rw [BitVec.add_zero] at plain nonzero
    rw [scan_go (n + 1) (by rwa [readEffect_plain s plain]), readEffect_plain s plain, ih, write_write]
    · rw [List.range_succ_eq_map, List.flatMap_cons, List.flatMap_map, BitVec.add_zero]
      simp only [add_ofNat_succ, write_cell]
    · intro k hk
      rw [write_cell, ← add_ofNat_succ]
      exact string (k + 1) (Nat.succ_lt_succ hk)
    · rwa [← add_ofNat_succ]
    · rwa [write_cell, ← add_ofNat_succ]

/-- A string ends within one lap: 65536 cells on, the first one comes again, and it is not zero. -/
theorem string_length_lt {n : Nat} {a : Word} {s : State} (string : ∀ k < n, s.cell (a + BitVec.ofNat 16 k) ≠ 0)
    (zeroEnd : s.cell (a + BitVec.ofNat 16 n) = 0) : n < 65536 := by
  by_contra long
  obtain ⟨m, rfl⟩ : ∃ m, n = m + 65536 := ⟨n - 65536, by omega⟩
  have again : BitVec.ofNat 16 (m + 65536) = BitVec.ofNat 16 m := by
    rw [BitVec.ofNat_add]
    exact BitVec.add_zero _
  rw [again] at zeroEnd
  exact string m (by omega) zeroEnd

/-- The scan of such a string as a service: the link, then what is written for each cell. -/
theorem serviceScan_string (chars : Word → List Word) {n : Nat} {s : State}
    (string : ∀ k < n, s.reg .r0 + BitVec.ofNat 16 k ≠ kbsr ∧ s.cell (s.reg .r0 + BitVec.ofNat 16 k) ≠ 0)
    (plainEnd : s.reg .r0 + BitVec.ofNat 16 n ≠ kbsr) (zeroEnd : s.cell (s.reg .r0 + BitVec.ofNat 16 n) = 0) :
    serviceScan chars (trapLink s) = .next ((trapLink s).write
      ((List.range n).flatMap fun k => chars (s.cell (s.reg .r0 + BitVec.ofNat 16 k)))) := by
  have short := string_length_lt (fun k hk => (string k hk).2) zeroEnd
  have fuel := lap_lt_scanFuel (trapLink s)
  simp only [← trapLink_cell s, ← trapLink_reg_r0 s] at string plainEnd zeroEnd ⊢
  exact serviceScan_of_some (scan_fuel_mono (by omega) (scan_string chars string plainEnd zeroEnd))

/-- Settles O53: PUTS writes the cell itself for each cell. -/
theorem putsWritesTheString : Obligations.PutsWritesTheString := by
  intro s n string plainEnd zeroEnd
  refine ⟨_, (exec_puts s).trans (serviceScan_string putsChars string plainEnd zeroEnd), ?_, trapLink_write_frame s _⟩
  rw [write_output, trapLink_output, List.map_flatMap, List.map_eq_flatMap]
  rfl

/-- The events of PUTSP for one cell (R119). -/
theorem map_written_putspChars (v : Word) : (putspChars v).map OutEvent.written =
    if v.extractLsb' 8 8 = 0 then [.written ((v.extractLsb' 0 8).setWidth 16)]
    else [.written ((v.extractLsb' 0 8).setWidth 16), .written ((v.extractLsb' 8 8).setWidth 16)] := by
  have zero : highChar v = 0 ↔ v.extractLsb' 8 8 = 0 := by
    rw [highChar_eq]
    exact ⟨fun h => by_contra fun nonzero => zext_ne_zero nonzero h, fun h => by rw [h]; rfl⟩
  simp only [putspChars, zero, ← lowChar_eq, ← highChar_eq]
  split <;> rfl

/-- Settles O54: PUTSP writes for each cell its low byte and its nonzero high byte. -/
theorem putspWritesThePackedString : Obligations.PutspWritesThePackedString := by
  intro s n string plainEnd zeroEnd
  refine ⟨_, (exec_putsp s).trans (serviceScan_string putspChars string plainEnd zeroEnd), ?_, trapLink_write_frame s _⟩
  rw [write_output, trapLink_output, List.map_flatMap]
  simp only [map_written_putspChars]

end Sys2Proof.Machine

/-! PROOFS. The scan that never ends (43_trap.md R117, R119, I9; log 14): how many polls the host can answer with a character
before it settles the matter, and what each lap of 65536 reads tells. -/

namespace Sys2Proof

/-- The next poll settles whether a scan can go on: it answers false, or with NUL, or the host is from now on one that supplies
characters other than NUL without end. -/
def Keyboard.Decisive (k : Keyboard) : Prop :=
  k.poll.2 = none ∨ k.poll.2 = some 0 ∨ ∃ n, k.poll.1 = ⟨[], .endless n⟩

/-- The host's side after `n` polls. -/
def Keyboard.polled (n : Nat) (k : Keyboard) : Keyboard := (fun k => k.poll.1)^[n] k

theorem Keyboard.polled_succ (n : Nat) (k : Keyboard) : k.polled (n + 1) = k.poll.1.polled n := rfl

/-- One of the next `n + 1` polls is decisive. -/
def Keyboard.DecisiveWithin (n : Nat) (k : Keyboard) : Prop := ∃ j ≤ n, (k.polled j).Decisive

section DecisiveWithin

variable {k : Keyboard}

theorem Keyboard.Decisive.within (h : k.Decisive) (n : Nat) : k.DecisiveWithin n := ⟨0, Nat.zero_le n, h⟩

theorem Keyboard.DecisiveWithin.of_poll {n : Nat} (h : k.poll.1.DecisiveWithin n) : k.DecisiveWithin (n + 1) := by
  obtain ⟨j, le, decisive⟩ := h
  exact ⟨j + 1, Nat.succ_le_succ le, decisive⟩

/-- Polls see only what is settled. -/
theorem Keyboard.poll_refill (k : Keyboard) : k.refill.poll = k.poll := by
  unfold poll
  rw [refill_refill]

theorem Keyboard.Decisive.of_refill (h : k.refill.Decisive) : k.Decisive := by
  rwa [Decisive, poll_refill] at h

theorem Keyboard.DecisiveWithin.of_refill {n : Nat} (h : k.refill.DecisiveWithin n) : k.DecisiveWithin n := by
  obtain ⟨_ | j, le, decisive⟩ := h
  · exact ⟨0, le, decisive.of_refill⟩
  · rw [polled_succ, poll_refill] at decisive
    exact ⟨j + 1, le, decisive⟩

/-- Pending characters put the decisive poll off by one each at most: one that is not ready is itself decisive. -/
theorem Keyboard.decisiveWithin_append {tail : List KeyEvent} {supply : Supply} {n : Nat}
    (h : DecisiveWithin n ⟨tail, supply⟩) (pending : List KeyEvent) :
    DecisiveWithin (pending.length + n) ⟨pending ++ tail, supply⟩ := by
  induction pending with
  | nil => rwa [List.length_nil, Nat.zero_add, List.nil_append]
  | cons e pending ih =>
    obtain ⟨_ | d, c⟩ := e
    · rw [List.length_cons, Nat.succ_add]
      exact DecisiveWithin.of_poll ih
    · exact Decisive.within (.inl rfl) _

end DecisiveWithin

theorem Keyboard.decisive_silent : Decisive ⟨[], .silent⟩ := .inl rfl

theorem Keyboard.decisive_endless (n : Nat) : Decisive ⟨[], .endless n⟩ := .inr (.inr ⟨n + 1, rfl⟩)

/-- The character that ends a paused burst is decisive: it is not ready, or it is NUL. -/
theorem Keyboard.decisive_pausing (delay : Nat) (code : Byte) (supply : Supply) :
    Decisive ⟨[KeyEvent.pausing delay code], supply⟩ := by
  cases delay with
  | zero => exact .inr (.inl rfl)
  | succ d => exact .inl rfl

/-- Once nothing is pending, the supply settles the matter within as many polls as it counts for. -/
theorem Keyboard.decisiveWithin_supply (supply : Supply) : DecisiveWithin (ahead ⟨[], supply⟩) ⟨[], supply⟩ := by
  match supply with
  | .silent => exact decisive_silent.within _
  | .endless n => exact (decisive_endless n).within _
  | .drawn n =>
    refine DecisiveWithin.of_refill ?_
    show DecisiveWithin _ ((Config.hostBurst n).settle n)
    simp only [ahead]
    match Config.hostBurst n with
    | .paused ready delay code =>
      simpa [Burst.settle] using
        decisiveWithin_append ((decisive_pausing delay code (.drawn (n + 1))).within 1) (ready.map (⟨0, ·⟩))
    | .final ready =>
      simpa [Burst.settle] using decisiveWithin_append (decisive_silent.within 0) (ready.map (⟨0, ·⟩))
    | .endless => exact Decisive.within (.inr (.inr ⟨1, rfl⟩)) _

/-- Within `ahead` polls and one more a poll is decisive. -/
theorem Keyboard.decisiveWithin_ahead (k : Keyboard) : k.DecisiveWithin k.ahead := by
  obtain ⟨pending, supply⟩ := k
  have count : ahead ⟨pending, supply⟩ = pending.length + ahead ⟨[], supply⟩ := by simp [ahead]
  rw [count]
  simpa using decisiveWithin_append (decisiveWithin_supply supply) pending

end Sys2Proof

namespace Sys2Proof.Machine

/-! ### What a lap of reads tells -/

/-- `n` reads that do not meet 0xFE00 change nothing, so a scan goes on past them if their cells are not zero. -/
theorem scan_none_plain {chars : Word → List Word} {n m : Nat} {a : Word} {s : State}
    (plain : ∀ k < n, a + BitVec.ofNat 16 k ≠ kbsr) : scan chars (n + m) a s = none ↔
      (∀ k < n, s.cell (a + BitVec.ofNat 16 k) ≠ 0) ∧ scan chars m (a + BitVec.ofNat 16 n) s = none := by
  induction n generalizing a with
  | zero => simp
  | succ n ih =>
    have first : a ≠ kbsr := by simpa using plain 0 (Nat.succ_pos n)
    have rest (k : Nat) (hk : k < n) : a + 1 + BitVec.ofNat 16 k ≠ kbsr := by
      rw [← add_ofNat_succ]
      exact plain (k + 1) (Nat.succ_lt_succ hk)
    rw [Nat.succ_add, scan_none_succ, readEffect_plain s first, ih rest, Nat.forall_lt_succ_left', BitVec.add_zero, and_assoc]
    simp only [add_ofNat_succ]

/-- The addresses a lap visits after 0xFE00 are all the others, and then 0xFE00 again. -/
theorem kbsr_add_ofNat_ne {k : Nat} (h : k < 65535) : kbsr + 1 + BitVec.ofNat 16 k ≠ kbsr := by
  simp only [kbsr]
  bv_omega

/-- Every address is met in a lap from 0xFE00. -/
theorem eq_kbsr_add_of_ne {b : Word} (h : b ≠ kbsr) : ∃ k < 65535, b = kbsr + 1 + BitVec.ofNat 16 k := by
  simp only [kbsr] at h ⊢
  refine ⟨(b - 0xFE01).toNat, ?_, ?_⟩ <;> bv_omega

/-- A lap of 65536 reads from 0xFE00: one poll, and then every cell as the poll left it. -/
theorem scan_none_lap {chars : Word → List Word} {m : Nat} {s : State} : scan chars (65536 + m) kbsr s = none ↔
    (∀ b : Word, (pollKeyboard s).cell b ≠ 0) ∧ scan chars m kbsr (pollKeyboard s) = none := by
  have fuel : 65536 + m = (65535 + m) + 1 := by omega
  have around : kbsr + 1 + BitVec.ofNat 16 65535 = kbsr := by decide
  rw [fuel, scan_none_succ, readEffect_kbsr, scan_none_plain fun k => kbsr_add_ofNat_ne, around, ← and_assoc]
  refine and_congr_left fun _ => ⟨fun ⟨status, others⟩ b => ?_, fun all => ⟨all _, fun k _ => all _⟩⟩
  by_cases h : b = kbsr
  · rwa [h]
  · obtain ⟨k, hk, rfl⟩ := eq_kbsr_add_of_ne h
    exact others k hk

/-- A scan that has gone around once has met a ready character other than NUL. -/
theorem poll_of_nonzero_cells {s : State} (nonzero : ∀ b : Word, (pollKeyboard s).cell b ≠ 0) :
    ∃ k c, s.keyboard.poll = (k, some c) ∧ c ≠ 0 := by
  obtain ⟨k, c, poll, -⟩ | ⟨k, poll, -⟩ := pollKeyboard_cases s
  · refine ⟨k, c, poll, ?_⟩
    rintro rfl
    exact nonzero kbdr (pollKeyboard_data_of_ready poll)
  · exact absurd (pollKeyboard_status_of_unready poll) (nonzero kbsr)

/-- A scan that goes around once more than the polls before the decisive one never ends: that poll can only have found a host
without end, and no cell is zero. By induction on those polls, one for each lap. -/
theorem scan_none_of_laps {chars : Word → List Word} {j : Nat} {s : State} (decisive : (s.keyboard.polled j).Decisive)
    (h : scan chars (65536 * (j + 1)) kbsr s = none) (fuel : Nat) : scan chars fuel kbsr s = none := by
  induction j generalizing s with
  | zero =>
    obtain ⟨nonzero, -⟩ := (scan_none_lap (m := 0)).1 h
    obtain ⟨k, c, poll, notNul⟩ := poll_of_nonzero_cells nonzero
    have endless : ∃ n, s.keyboard.poll.1 = ⟨[], .endless n⟩ := by
      obtain unready | nul | endless : s.keyboard.Decisive := decisive
      · rw [poll] at unready
        cases unready
      · rw [poll] at nul
        exact absurd (Option.some.inj nul) notNul
      · exact endless
    have noZero : NoZeroToCome (pollKeyboard s) := ⟨by rwa [pollKeyboard_keyboard], fun b _ => nonzero b⟩
    exact scan_none_le (Nat.le_add_left fuel 65536) (scan_none_lap.2 ⟨nonzero, noZero.scan chars fuel kbsr⟩)
  | succ j ih =>
    have oneLap : 65536 * (j + 1 + 1) = 65536 + 65536 * (j + 1) := by omega
    rw [oneLap, scan_none_lap] at h
    obtain ⟨nonzero, rest⟩ := h
    rw [Keyboard.polled_succ, ← pollKeyboard_keyboard] at decisive
    exact scan_none_le (Nat.le_add_left fuel 65536) (scan_none_lap.2 ⟨nonzero, ih decisive rest⟩)

/-- The bound on the reads suffices: a scan that has not ended by then never ends. The reads up to 0xFE00 are plain, and there
the laps begin. -/
theorem scan_none_of_scanFuel {chars : Word → List Word} {a : Word} {s : State}
    (h : scan chars (scanFuel s) a s = none) (fuel : Nat) : scan chars fuel a s = none := by
  obtain ⟨j, le, decisive⟩ := s.keyboard.decisiveWithin_ahead
  have plain (k : Nat) (hk : k < (kbsr - a).toNat) : a + BitVec.ofNat 16 k ≠ kbsr := by
    intro met
    rw [← met] at hk
    bv_omega
  have arrive : a + BitVec.ofNat 16 (kbsr - a).toNat = kbsr := by
    bv_omega
  have lap := (kbsr - a).isLt
  have enough : (kbsr - a).toNat + 65536 * (j + 1) ≤ scanFuel s := by
    rw [scanFuel]
    omega
  obtain ⟨nonzero, laps⟩ := (scan_none_plain plain).1 (scan_none_le enough h)
  rw [arrive] at laps
  refine scan_none_le (Nat.le_add_left fuel _) ((scan_none_plain plain).2 ⟨nonzero, ?_⟩)
  rw [arrive]
  exact scan_none_of_laps decisive laps fuel

/-- The service hangs if and only if its scan never ends. -/
theorem serviceScan_hangs_iff_endless (chars : Word → List Word) (s : State) :
    serviceScan chars s = .fault .scanHang ↔ ∀ fuel, scan chars fuel (s.reg .r0) s = none :=
  serviceScan_eq_hang_iff.trans ⟨scan_none_of_scanFuel, fun never => never _⟩

/-- Settles O56. -/
theorem scanHangsOnlyIfEndless : Obligations.ScanHangsOnlyIfEndless := by
  intro s
  rw [exec_puts, exec_putsp, ← trapLink_reg_r0]
  exact ⟨serviceScan_hangs_iff_endless putsChars _, serviceScan_hangs_iff_endless putspChars _⟩

/-- A scan that starts on 0xFE00 with no character ready ends at once (R117, R51). -/
theorem serviceScan_of_unready {chars : Word → List Word} {s : State} {k : Keyboard} (r0 : s.reg .r0 = kbsr)
    (poll : s.keyboard.poll = (k, none)) : serviceScan chars s = .next (memWrite (s.setKeyboard k) kbsr 0) := by
  refine serviceScan_of_some (scan_fuel_mono (n := 1) (by have := lap_lt_scanFuel s; omega) ?_)
  rw [r0, scan_stop 0, readEffect_kbsr, pollKeyboard_of_unready poll]
  rw [readEffect_kbsr, pollKeyboard_status_of_unready poll]

/-- Settles O55: the poll writes the status cell and the host's side, and the scan nothing more. -/
theorem scanOfUnreadyStatusCellEnds : Obligations.ScanOfUnreadyStatusCellEnds := by
  intro s k v vector r0 poll
  have e : exec (.trap v) s = .next (memWrite ((trapLink s).setKeyboard k) kbsr 0) := by
    rw [← trapLink_reg_r0] at r0
    rw [← trapLink_keyboard] at poll
    obtain rfl | rfl := vector
    · exact (exec_puts s).trans (serviceScan_of_unready r0 poll)
    · exact (exec_putsp s).trans (serviceScan_of_unready r0 poll)
  refine ⟨_, e, trapLink_output s, memWrite_cell_self _ _ _, rfl, trapLink_run s, fun a other => ?_,
    onlyService_of_gpr rfl (trapLink_pc s) (trapLink_cond s) (trapLink_params s)⟩
  rw [memWrite_cell, if_neg (List.ne_of_not_mem_cons other), setKeyboard_cell, trapLink_cell]

end Sys2Proof.Machine

/-! PROOFS. Reset and the edges of the loader (70_reset_and_hazards.md R145, R150; 10_state.md R37). -/

namespace Sys2Proof.Machine

/-- With no image every cell is zero, whatever the other values at reset. -/
theorem resetWith_nil_cell (start : StartValues) (params : Params) (keyboard : Keyboard) (a : Word) :
    (State.resetWith start params [] keyboard).cell a = 0 := by
  show (loadImage []).peek a.toNat = 0
  rw [loadImage_short (by decide)]
  rfl

/-- Settles O11: every field is the parameter it is given. -/
theorem resetSequenceInitialises : Obligations.ResetSequenceInitialises := fun start params _ keyboard =>
  ⟨fun _ => rfl, rfl, rfl, rfl, rfl, resetWith_nil_cell start params keyboard⟩

/-- Settles O12: the reset sequence at the spec's values. -/
theorem stateAfterReset : Obligations.StateAfterReset := by
  refine ⟨rfl, rfl, resetWith_nil_cell _ _ _, fun r => ?_, rfl, rfl, rfl, rfl, rfl⟩
  cases r <;> rfl

/-- Settles O14: the loader starts from no cells, and each of its writes keeps the form. -/
theorem memoryIsCanonicalAfterLoading : Obligations.MemoryIsCanonicalAfterLoading := loadImage_wf

/-- Settles O13: the reset loads the empty image. -/
theorem memoryIsCanonicalAtReset : Obligations.MemoryIsCanonicalAtReset := memoryIsCanonicalAfterLoading []

/-- Loading whole words, a byte after the last one is not loaded. By the recursion of the loader, two bytes at a time. -/
theorem loadFromAddress_append_byte {bytes : List Byte} (even : bytes.length % 2 = 0) (b : Byte) (a : Nat) (m : Memory) :
    loadFromAddress a (bytes ++ [b]) m = loadFromAddress a bytes m := by
  match bytes with
  | [] => simp [loadFromAddress]
  | [_] => simp at even
  | b0 :: b1 :: rest =>
    have evenRest : rest.length % 2 = 0 := by
      rw [List.length_cons, List.length_cons] at even
      omega
    simp only [List.cons_append, loadFromAddress, loadFromAddress_append_byte evenRest]

/-- Settles O16: an image of one byte is one whose odd byte is all there is. -/
theorem loaderIgnoresPartialWords : Obligations.LoaderIgnoresPartialWords := by
  refine ⟨fun _ => loadImage_short, fun image b even => ?_⟩
  match image with
  | [] => rw [loadImage_short (by simp), loadImage_short (by simp)]
  | [_] => simp at even
  | b0 :: b1 :: rest =>
    have evenRest : rest.length % 2 = 0 := by
      rw [List.length_cons, List.length_cons] at even
      omega
    rw [List.cons_append, List.cons_append, loadImage_eq, loadImage_eq, loadFromAddress_append_byte evenRest]

end Sys2Proof.Machine

/-! PROOFS. What every instruction does and leaves alone: PC, the general registers, memory, the output and the run state
(10_state.md R18, R22, R31; 20_memory.md R41). -/

namespace Sys2Proof.Machine

/-! ### The frame of the instructions, by kind -/

/-- A flag-updating instruction does no more than a load may. -/
theorem exec_onlyLoad {i : Instr} {dr : Reg} (h : i.resultReg = some dr) {s t : State} (e : exec i s = .next t) :
    OnlyLoad dr s t := by
  cases i with
  | addReg | addImm | andReg | andImm | not | lea =>
    cases h
    cases e
    exact (writeResult_onlyResult s dr _).onlyLoad
  | ld | ldr =>
    cases h
    cases e
    exact loadFrom_onlyLoad s dr _
  | ldi =>
    cases h
    cases e
    exact (readEffect_onlyLoad s _ dr).trans (loadFrom_onlyLoad _ dr _)
  | _ => cases h

/-- What BR does, of whatever state it answers. -/
theorem pc_and_frame_of_br {mask : BitVec 3} {off9 : BitVec 9} {s t : State} (e : exec (.br mask off9) s = .next t) :
    t.pc = (if mask &&& s.cond ≠ 0 then s.pc + sext off9 else s.pc) ∧ OnlyPc [] s t := by
  obtain ⟨u, e', pc, frame⟩ := branchOnMask.2 mask off9 s
  cases e.symm.trans e'
  exact ⟨pc, frame⟩

/-! ### The frame of TRAP -/

/-- A scan only appends to the output: no read writes to it. -/
theorem scan_output {chars : Word → List Word} {n : Nat} {a : Word} {s t : State} (done : scan chars n a s = some t) :
    s.output <+: t.output :=
  scan_keeps (P := fun u => s.output <+: u.output) (fun u b h => by rwa [readEffect_output])
    (fun u cs h => h.trans (List.prefix_append u.output _)) done List.prefix_rfl

/-- The registers that a service writes by its own rule (R115, R118, R122). -/
def serviceRegs (v : BitVec 8) : List Reg := if v = 0x20 ∨ v = 0x23 then [.r0] else []

/-- The cells that a service may write: those of the polls of a scan (R51, D10). -/
def serviceCells (v : BitVec 8) : List Word := if v = 0x22 ∨ v = 0x24 then [kbsr, kbdr] else []

/-- What a TRAP that completes leaves alone, by its vector, and that it only appends to the output. -/
def TrapFrame (v : BitVec 8) (s t : State) : Prop :=
  OnlyService (serviceRegs v) s t ∧ MemKept (serviceCells v) s t ∧ s.output <+: t.output

/-- A scan after the link keeps the frame of the service it belongs to. -/
theorem trapFrame_of_scan {v : BitVec 8} (puts : v = 0x22 ∨ v = 0x24) {chars : Word → List Word} {n : Nat} {a : Word}
    {s t : State} (done : scan chars n a (trapLink s) = some t) : TrapFrame v s t := by
  obtain ⟨gpr, pc, cond, -, params, mem⟩ := scan_frame done
  have regs : serviceRegs v = [] := by
    obtain rfl | rfl := puts <;> rfl
  have cells : serviceCells v = [kbsr, kbdr] := if_pos puts
  rw [TrapFrame, regs, cells]
  exact ⟨onlyService_of_gpr gpr (pc.trans (trapLink_pc s)) (cond.trans (trapLink_cond s))
      (params.trans (trapLink_params s)), fun b other => (mem b other).trans (trapLink_cell s b),
    trapLink_output s ▸ scan_output done⟩

/-- A service that writes the output at most, and at its end, keeps its frame. -/
theorem trapFrame_of_append {v : BitVec 8} {s t : State} {events : List OutEvent}
    (service : OnlyService (serviceRegs v) s t) (mem : t.mem = s.mem) (output : t.output = s.output ++ events) :
    TrapFrame v s t :=
  ⟨service, fun a _ => by rw [State.cell, mem, State.cell], output ▸ List.prefix_append _ _⟩

/-- Nothing but the link is left of an unknown vector's registers. -/
theorem serviceRegs_of_unknown {v : BitVec 8} (unknown : serviceOf v = .unknown) : serviceRegs v = [] := by
  refine if_neg ?_
  rintro (rfl | rfl) <;> cases unknown

/-- Every TRAP that completes keeps its frame. -/
theorem execTrap_frame {v : BitVec 8} {s t : State} (e : execTrap v s = .next t) : TrapFrame v s t := by
  have pc := trapLink_pc s
  have cond := trapLink_cond s
  have params := trapLink_params s
  have mem := trapLink_mem s
  have output := trapLink_output s
  obtain ⟨rfl, c, k, -, rfl⟩ | ⟨rfl, rfl⟩ | ⟨rfl, done⟩ | ⟨rfl, c, k, -, rfl⟩ | ⟨rfl, done⟩ | ⟨rfl, rfl⟩ |
    ⟨unknown, -, rfl⟩ | ⟨unknown, -, rfl⟩ := execTrap_next e
  case inl => -- GETC
    exact trapFrame_of_append (events := []) (setReg_r0_onlyService rfl pc cond params _) mem (by simp)
  case inr.inl => -- OUT
    exact trapFrame_of_append (onlyService_of_gpr rfl pc cond params) mem (by rw [write_output, output])
  case inr.inr.inl => -- PUTS
    exact trapFrame_of_scan (.inl rfl) done
  case inr.inr.inr.inl => -- IN
    exact trapFrame_of_append (events := s.params.inPrompt.map .written ++ [.echoed c])
      (setReg_r0_onlyService rfl pc cond params _) mem (by simp)
  case inr.inr.inr.inr.inl => -- PUTSP
    exact trapFrame_of_scan (.inr rfl) done
  case inr.inr.inr.inr.inr.inl => -- HALT
    exact trapFrame_of_append (onlyService_of_gpr rfl pc cond params) mem (by rw [haltCore_output, write_output, output])
  all_goals -- a vector without a service
    refine trapFrame_of_append (events := []) ?_ mem (by simp)
    rw [serviceRegs_of_unknown unknown]
    exact onlyService_of_gpr rfl pc cond params

/-! ### PC, registers, memory -/

/-- Settles O46: an instruction with a result and a store leave PC alone, a control transfer sets it to its target, and the
services and faults do not touch it. -/
theorem pcAfterEachInstruction : Obligations.PcAfterEachInstruction := by
  refine fun i s t e => ⟨?_, ?_⟩
  · cases i with
    | addReg | addImm | andReg | andImm | not | ld | ldi | ldr | lea =>
      obtain ⟨-, pc, -⟩ := exec_onlyLoad rfl e
      exact pc
    | br => exact (pc_and_frame_of_br e).1
    | jsrr baseR => cases (exec_jsrr baseR s).symm.trans e; rfl
    | jmp | jsr | st | str | reserved8 | reserved13 => cases e; rfl
    | sti => cases e; exact readEffect_pc s _
    | trap v =>
      obtain ⟨⟨-, -, pc, -⟩, -⟩ := execTrap_frame e
      exact pc
  · rintro (rfl | rfl) <;> cases e <;> exact ⟨_, rfl⟩

/-- Settles O47: the destination of a result, the link of a call, the registers of a service. -/
theorem registersWritten : Obligations.RegistersWritten := by
  intro i s t e
  cases i with
  | addReg | addImm | andReg | andImm | not | ld | ldi | ldr | lea => exact (exec_onlyLoad rfl e).1
  | br => exact (pc_and_frame_of_br e).2.1
  | jsr => cases e; exact (linkR7_onlyPc s).1
  | jsrr baseR => cases (exec_jsrr baseR s).symm.trans e; exact (linkR7_onlyPc s).1
  | jmp | st | str | reserved8 | reserved13 => cases e; exact fun _ _ => rfl
  | sti => cases e; exact fun q _ => readEffect_reg s _ q
  | trap v => exact (execTrap_frame e).1.1

/-- Settles O48: a store writes its cell, a read may poll, and nothing else accesses memory. -/
theorem memoryWritten : Obligations.MemoryWritten := by
  intro i s t e
  cases i with
  | addReg | addImm | andReg | andImm | not | lea => cases e; exact fun _ _ => rfl
  | ld | ldi | ldr =>
    obtain ⟨-, -, mem, -⟩ := exec_onlyLoad rfl e
    exact mem
  | br =>
    obtain ⟨-, -, -, mem, -⟩ := pc_and_frame_of_br e
    exact mem
  | jmp | jsr | reserved8 | reserved13 => cases e; exact fun _ _ => rfl
  | jsrr baseR => cases (exec_jsrr baseR s).symm.trans e; exact fun _ _ => rfl
  | st | str => cases e; exact memWrite_memKept s _ _
  | sti => cases e; exact memWrite_readEffect_memKept s _ _ _
  | trap v => exact (execTrap_frame e).2.1

end Sys2Proof.Machine

/-! PROOFS. The rules of the whole machine: completion, the step, its invariants, and the end of a run (10_state.md R28, R31;
30_encoding.md R76, R79; 60_exceptions.md R127, R144). -/

namespace Sys2Proof.Machine

/-! ### Every instruction completes, or waits, or hangs (R127) -/

/-- A scan as a service completes or hangs. -/
theorem serviceScan_cases (chars : Word → List Word) (s : State) :
    (∃ t, serviceScan chars s = .next t) ∨ serviceScan chars s = .fault .scanHang := by
  cases h : scan chars (scanFuel s) (s.reg .r0) s with
  | some t => exact .inl ⟨t, serviceScan_of_some h⟩
  | none => exact .inr (serviceScan_eq_hang_iff.2 h)

/-- What the host has for a blocking read decides whether it completes. -/
theorem blockingRead_cases {v : BitVec 8} (blocking : v = 0x20 ∨ v = 0x23) (s : State) :
    (∃ t, exec (.trap v) s = .next t) ∨ (s.keyboard.read = none ∧ exec (.trap v) s = .fault .awaitingHost) := by
  cases h : s.keyboard.read with
  | some answer =>
    obtain ⟨c, k⟩ := answer
    obtain ⟨t, getc, -⟩ := getcReadsOneCharacter s c k h
    obtain ⟨u, inChar, -⟩ := inPromptsAndEchoes s c k h
    obtain rfl | rfl := blocking
    · exact .inl ⟨t, getc⟩
    · exact .inl ⟨u, inChar⟩
  | none =>
    obtain ⟨getc, inChar⟩ := blockingReadsWaitForTheHost s h
    obtain rfl | rfl := blocking
    · exact .inr ⟨rfl, getc⟩
    · exact .inr ⟨rfl, inChar⟩

/-- Settles O10: by the instruction, and for TRAP by the service. -/
theorem everyInstructionCompletesButWaitingTraps : Obligations.EveryInstructionCompletesButWaitingTraps := by
  intro i s
  cases i with
  | jsrr baseR => exact .inl ⟨_, exec_jsrr baseR s⟩
  | trap v =>
    obtain ⟨rfl, -⟩ | ⟨rfl, -⟩ | ⟨rfl, -⟩ | ⟨rfl, -⟩ | ⟨rfl, -⟩ | ⟨rfl, -⟩ | unknown := serviceOf_cases v
    · exact (blockingRead_cases (.inl rfl) s).imp_right fun waits => .inl ⟨.inl rfl, waits⟩
    · exact .inl ⟨_, exec_out s⟩
    · exact (serviceScan_cases putsChars (trapLink s)).imp_right fun hangs => .inr ⟨.inl rfl, hangs⟩
    · exact (blockingRead_cases (.inr rfl) s).imp_right fun waits => .inl ⟨.inr rfl, waits⟩
    · exact (serviceScan_cases putspChars (trapLink s)).imp_right fun hangs => .inr ⟨.inr rfl, hangs⟩
    · exact .inl ⟨_, exec_halt s⟩
    · exact .inl ⟨_, exec_unknown_eq s unknown⟩
  | _ => exact .inl ⟨_, rfl⟩

/-! ### The step -/

theorem step_of_running {s : State} (running : s.run = .running) :
    step s = exec (decode (fetch s).1) (fetch s).2 := by
  rw [step, running]

/-- Settles O7: the fetch is that read, and the increment of PC. -/
theorem stepRunsTheDecodedInstruction : Obligations.StepRunsTheDecodedInstruction := fun _ => step_of_running

/-- Settles O8. -/
theorem noStepInTerminalStates : Obligations.NoStepInTerminalStates :=
  fun s => ⟨fun halted => by rw [step, halted], fun r faulted => by rw [step, faulted]⟩

/-- What the fetch leaves alone, and the address it was made from. -/
theorem fetch_keeps (s : State) : (fetch s).2.fpc = s.pc ∧ (fetch s).2.run = s.run ∧ (fetch s).2.output = s.output ∧
    (fetch s).2.params = s.params := by
  rw [fetch_eq]
  refine ⟨?_, readEffect_run s _, readEffect_output s _, readEffect_params s _⟩
  exact BitVec.add_sub_cancel s.pc 1

/-- A step away from 0xFE00, where the fetch has no side effect. -/
theorem step_of_running_plain {s : State} (running : s.run = .running) (plain : s.pc ≠ kbsr) :
    step s = exec (decode (s.cell s.pc)) (s.setPc (s.pc + 1)) := by
  rw [step_of_running running, fetch_plain s plain]

/-- A step on ST with offset 0 stores at the next address. -/
theorem step_of_st_next {s : State} {sr : Reg} (running : s.run = .running) (plain : s.pc ≠ kbsr)
    (store : decode (s.cell s.pc) = .st sr 0) :
    step s = .next (memWrite (s.setPc (s.pc + 1)) (s.pc + 1) (s.reg sr)) := by
  have next : s.pc + 1 + sext (0 : BitVec 9) = s.pc + 1 := BitVec.add_zero _
  rw [step_of_running_plain running plain, store, exec_st, setPc_pc, setPc_reg, next]

/-- Settles O41: away from 0xFE00 both fetches are plain, and the first step has stored the word that the second reads. -/
theorem storeIsSeenByTheNextFetch : Obligations.StoreIsSeenByTheNextFetch := by
  intro s sr running plain plainNext store
  refine ⟨_, step_of_st_next running plain store, rfl, running, ?_⟩
  rw [step_of_running_plain (s := memWrite (s.setPc (s.pc + 1)) (s.pc + 1) (s.reg sr)) running plainNext, memWrite_pc,
    setPc_pc, memWrite_cell_self, BitVec.add_assoc]
  rfl

/-! ### Invariants of the step -/

/-- Canonical memory is kept by every operation: only writes and polls touch memory. -/
theorem wf_keptByOps : KeptByOps fun u => u.mem.wf = true where
  memWrite _ a v h := memWrite_wf a v h
  readEffect _ a h := readEffect_wf a h
  setReg _ _ _ h := h
  setPc _ _ h := h
  setcc _ _ h := h
  write _ _ h := h
  echo _ _ h := h
  setKeyboard _ _ h := h
  raiseFault _ _ h := h
  haltCore _ h := h

/-- Settles O42. -/
theorem stepKeepsMemoryCanonical : Obligations.StepKeepsMemoryCanonical :=
  fun _ _ canonical e => wf_keptByOps.step e canonical

/-- The generator sets exactly one flag (R89). -/
theorem condOf_oneFlag (v : Word) : OneFlag (condOf v) := by
  unfold condOf
  split
  · exact .inr (.inl rfl)
  · split
    · exact .inl rfl
    · exact .inr (.inr rfl)

/-- A legal COND is kept by every operation: only the generator writes it. -/
theorem oneFlag_keptByOps : KeptByOps fun u => OneFlag u.cond where
  setcc _ v _ := condOf_oneFlag v
  readEffect u a h := by rwa [readEffect_cond]
  memWrite _ _ _ h := h
  setReg _ _ _ h := h
  setPc _ _ h := h
  write _ _ h := h
  echo _ _ h := h
  setKeyboard _ _ h := h
  raiseFault _ _ h := h
  haltCore _ h := h

/-- The instructions with a result are those that update the flags. -/
theorem resultReg_of_form {i : Instr}
    (h : i.form ∈ [Form.addReg, .addImm, .andReg, .andImm, .not, .ld, .ldi, .ldr, .lea]) : ∃ dr, i.resultReg = some dr := by
  cases i with
  | addReg dr | addImm dr | andReg dr | andImm dr | not dr | ld dr | ldi dr | ldr dr | lea dr => exact ⟨dr, rfl⟩
  | _ => simp [Instr.form] at h

/-- Settles O43: the flags of a flag-updating instruction are the generator's, whatever COND held. -/
theorem stepKeepsExactlyOneFlag : Obligations.StepKeepsExactlyOneFlag := by
  refine ⟨fun s t one e => oneFlag_keptByOps.step e one, fun i s t e updates => ?_⟩
  obtain ⟨dr, result⟩ := resultReg_of_form updates
  rw [cond_of_resultReg result e]
  exact condOf_oneFlag _

/-! ### The output and the end of a run -/

/-- Only TRAP and the reserved opcodes write the output or the run state. -/
theorem exec_quiet {i : Instr} {s t : State} (e : exec i s = .next t) (notTrap : i.form ≠ .trap) (not8 : i ≠ .reserved8)
    (not13 : i ≠ .reserved13) : t.output = s.output ∧ ControlKept s t := by
  cases i with
  | addReg | addImm | andReg | andImm | not | ld | ldi | ldr | lea =>
    obtain ⟨-, -, -, quiet⟩ := exec_onlyLoad rfl e
    exact quiet
  | br =>
    obtain ⟨-, -, -, -, ⟨-, output⟩, control⟩ := pc_and_frame_of_br e
    exact ⟨output, control⟩
  | jsrr baseR => cases (exec_jsrr baseR s).symm.trans e; exact ⟨rfl, rfl, rfl⟩
  | jmp | jsr | st | str => cases e; exact ⟨rfl, rfl, rfl⟩
  | sti =>
    cases e
    exact ⟨readEffect_output s _, readEffect_run s _, readEffect_params s _⟩
  | trap => exact absurd rfl notTrap
  | reserved8 => exact absurd rfl not8
  | reserved13 => exact absurd rfl not13

/-- Every instruction but TRAP leaves the output, and TRAP only appends to it; the parameters are never written. -/
theorem exec_output {i : Instr} {s t : State} (e : exec i s = .next t) :
    s.output <+: t.output ∧ (i.form ≠ .trap → t.output = s.output) ∧ t.params = s.params := by
  have kept (output : t.output = s.output) (params : t.params = s.params) :
      s.output <+: t.output ∧ (i.form ≠ .trap → t.output = s.output) ∧ t.params = s.params :=
    ⟨output ▸ List.prefix_rfl, fun _ => output, params⟩
  cases i with
  | trap v =>
    obtain ⟨⟨-, -, -, -, params⟩, -, grows⟩ := execTrap_frame e
    exact ⟨grows, fun notTrap => absurd rfl notTrap, params⟩
  | reserved8 | reserved13 => cases e; exact kept rfl rfl
  | _ =>
    obtain ⟨output, -, params⟩ := exec_quiet e nofun nofun nofun
    exact kept output params

/-- Settles O49: the fetch writes neither the output nor a parameter. -/
theorem outputOnlyGrows : Obligations.OutputOnlyGrows := by
  intro s t e
  obtain ⟨-, -, output, params⟩ := fetch_keeps s
  rw [← output, ← params]
  exact exec_output (step_next e).2

/-- How an instruction can end a run: HALT, a reserved opcode, or an unknown vector under `Fault` (R120, R124, R125). -/
theorem exec_run {i : Instr} {s t : State} (e : exec i s = .next t) : t.run = s.run ∨
    (t.run = .halted ∧ i = .trap 0x25) ∨
    (t.run = .faulted (.invalidOpcode 8 s.fpc) ∧ i = .reserved8) ∨
    (t.run = .faulted (.invalidOpcode 13 s.fpc) ∧ i = .reserved13) ∨
    (∃ v, t.run = .faulted (.unknownTrap v s.fpc) ∧ i = .trap v ∧ serviceOf v = .unknown ∧
      s.params.unknownTrap = .fault) := by
  cases i with
  | trap v =>
    have run := trapLink_run s
    obtain ⟨rfl, c, k, -, rfl⟩ | ⟨rfl, rfl⟩ | ⟨rfl, done⟩ | ⟨rfl, c, k, -, rfl⟩ | ⟨rfl, done⟩ | ⟨rfl, rfl⟩ |
      ⟨-, -, rfl⟩ | ⟨unknown, faults, rfl⟩ := execTrap_next e
    case inr.inr.inl | inr.inr.inr.inr.inl => -- PUTS, PUTSP
      obtain ⟨-, -, -, kept, -⟩ := scan_frame done
      exact .inl (kept.trans run)
    case inr.inr.inr.inr.inr.inl => -- HALT
      exact .inr (.inl ⟨rfl, rfl⟩)
    case inr.inr.inr.inr.inr.inr.inr => -- an unknown vector, under Fault
      have record : (raiseFault (trapLink s) (.unknownTrap v)).run = .faulted (.unknownTrap v s.fpc) := by
        rw [raiseFault_run, State.fpc, trapLink_pc, State.fpc]
      exact .inr (.inr (.inr (.inr ⟨v, record, rfl, unknown, faults⟩)))
    all_goals exact .inl run
  | reserved8 => cases e; exact .inr (.inr (.inl ⟨rfl, rfl⟩))
  | reserved13 => cases e; exact .inr (.inr (.inr (.inl ⟨rfl, rfl⟩)))
  | _ => exact .inl (exec_quiet e nofun nofun nofun).2.1

/-- Settles O9: the fetch does not touch the run state and takes the word from the address one below the PC it leaves. -/
theorem onlyHaltAndFaultsEndARun : Obligations.OnlyHaltAndFaultsEndARun := by
  intro s t e
  obtain ⟨running, e'⟩ := step_next e
  obtain ⟨fpc, run, -, params⟩ := fetch_keeps s
  have ends := exec_run e'
  rw [fpc, run, running, params] at ends
  refine ⟨running, ends.imp_right (.imp_right (.imp_right (.imp_right ?_)))⟩
  rintro ⟨v, record, trap, unknown, faults⟩
  exact ⟨v, record, trap, (serviceOf_unknown_iff v).1 unknown, faults⟩

/-! ### The reserved opcodes (R124, R129) -/

/-- The opcode field, put back at its place, is what the opcode mask keeps. -/
theorem opcode_of_field (w : Word) : w &&& 0xF000 = place (w.extractLsb' 12 4) 12 := (place_field w 12 4).symm

theorem exec_reserved8 (s : State) : exec .reserved8 s = .next (raiseFault s (.invalidOpcode 8)) := rfl

theorem exec_reserved13 (s : State) : exec .reserved13 s = .next (raiseFault s (.invalidOpcode 13)) := rfl

/-- Settles O60: the two words' rows examine the opcode alone. -/
theorem invalidOpcodeFaults : Obligations.InvalidOpcodeFaults := by
  refine ⟨fun _ => ⟨rfl, rfl⟩, fun s w s1 running read opcode => ?_⟩
  have fetched : fetch s = (w, s1.setPc (s.pc + 1)) := by rw [fetch, read]
  have fpc : (s1.setPc (s.pc + 1)).fpc = s.pc := BitVec.add_sub_cancel s.pc 1
  rw [step_of_running running, fetched]
  obtain op | op := opcode
  · have reserved : decode w = .reserved8 :=
      decode_of_row (r := ⟨.reserved8, 0xF000, 0x8000, 0xF000⟩) (by decide) (by rw [opcode_of_field, op]; rfl)
    rw [reserved, op, exec_reserved8, raiseFault, fpc]
    rfl
  · have reserved : decode w = .reserved13 :=
      decode_of_row (r := ⟨.reserved13, 0xF000, 0xD000, 0xF000⟩) (by decide) (by rw [opcode_of_field, op]; rfl)
    rw [reserved, op, exec_reserved13, raiseFault, fpc]
    rfl

end Sys2Proof.Machine
